-- ==== Sys2Proof/Word.lean ====
section
/-! DEFINITION. The word types of the machine (00_scope rules R5 and R7): every value is an unsigned number of a
stated width, so each is a bit vector of exactly that width. -/

namespace Sys2Proof

/-- 8 bits: a general register, a memory cell, a timer (00_scope R5). -/
abbrev Byte := BitVec 8

/-- 16 bits: an opcode, `pc`, `I`, an entry of the call stack (00_scope R5). -/
abbrev Word := BitVec 16

/-- 4 bits: the fields `x`, `y` and `n` of an opcode, a key index, `keyTarget` (00_scope R7, R9). -/
abbrev Nibble := BitVec 4

/-- 12 bits: the field `nnn` of an opcode, an address 0x000 to 0xFFF (00_scope R9). -/
abbrev Addr := BitVec 12

end Sys2Proof
end

