-- ==== Sys2Proof/Syntax.lean ====
section
/-! DEFINITION. The 34 instructions, one constructor per row of spec/opcode_table.json, in the table's order
(30_encoding R100). Each operand has the width its field has in the opcode (30_encoding R91, R92). -/

namespace Sys2Proof

/-- An instruction of base CHIP-8. `x` and `y` name the general registers `V[x]` and `V[y]`; `nn` is an immediate
byte; `nnn` a 12-bit address; `n` the height of a sprite. -/
inductive Instr where
  /-- `00E0` CLS: clear screen (44_display R211). -/
  | cls
  /-- `00EE` RET: return from subroutine (41_flow R142). -/
  | ret
  /-- `1nnn` JP addr: unconditional jump (41_flow R143). -/
  | jp (nnn : Addr)
  /-- `2nnn` CALL addr: call subroutine (41_flow R144). -/
  | call (nnn : Addr)
  /-- `3xnn` SE Vx, byte: skip if equal (41_flow R145). -/
  | seByte (x : Nibble) (nn : Byte)
  /-- `4xnn` SNE Vx, byte: skip if not equal (41_flow R146). -/
  | sneByte (x : Nibble) (nn : Byte)
  /-- `5xy0` SE Vx, Vy: skip if registers are equal (41_flow R147). -/
  | seReg (x y : Nibble)
  /-- `6xnn` LD Vx, byte: load immediate (42_alu R161). -/
  | ldByte (x : Nibble) (nn : Byte)
  /-- `7xnn` ADD Vx, byte: add immediate (42_alu R162). -/
  | addByte (x : Nibble) (nn : Byte)
  /-- `8xy0` LD Vx, Vy: assign (42_alu R163). -/
  | ldReg (x y : Nibble)
  /-- `8xy1` OR Vx, Vy (42_alu R164). -/
  | orReg (x y : Nibble)
  /-- `8xy2` AND Vx, Vy (42_alu R165). -/
  | andReg (x y : Nibble)
  /-- `8xy3` XOR Vx, Vy (42_alu R166). -/
  | xorReg (x y : Nibble)
  /-- `8xy4` ADD Vx, Vy: add with carry out (42_alu R167). -/
  | addReg (x y : Nibble)
  /-- `8xy5` SUB Vx, Vy: subtract with borrow out (42_alu R168). -/
  | subReg (x y : Nibble)
  /-- `8xy6` SHR Vx: shift right; `y` is decoded and ignored (42_alu R169, 30_encoding R99). -/
  | shr (x y : Nibble)
  /-- `8xy7` SUBN Vx, Vy: reverse subtract with borrow out (42_alu R170). -/
  | subnReg (x y : Nibble)
  /-- `8xyE` SHL Vx: shift left; `y` is decoded and ignored (42_alu R171, 30_encoding R99). -/
  | shl (x y : Nibble)
  /-- `9xy0` SNE Vx, Vy: skip if registers differ (41_flow R148). -/
  | sneReg (x y : Nibble)
  /-- `Annn` LD I, addr: set index (43_index_memory R190). -/
  | ldI (nnn : Addr)
  /-- `Bnnn` JP V0, addr: jump with offset (41_flow R149). -/
  | jpV0 (nnn : Addr)
  /-- `Cxnn` RND Vx, byte: random byte under mask (42_alu R172). -/
  | rnd (x : Nibble) (nn : Byte)
  /-- `Dxyn` DRW Vx, Vy, nibble: draw sprite (44_display R212). -/
  | drw (x y n : Nibble)
  /-- `Ex9E` SKP Vx: skip if key pressed (45_keys_timers R220). -/
  | skp (x : Nibble)
  /-- `ExA1` SKNP Vx: skip if key not pressed (45_keys_timers R221). -/
  | sknp (x : Nibble)
  /-- `Fx07` LD Vx, DT: get delay timer (45_keys_timers R222). -/
  | ldVxDT (x : Nibble)
  /-- `Fx0A` LD Vx, K: wait for key (45_keys_timers R223). -/
  | ldVxK (x : Nibble)
  /-- `Fx15` LD DT, Vx: set delay timer (45_keys_timers R224). -/
  | ldDTVx (x : Nibble)
  /-- `Fx18` LD ST, Vx: set sound timer (45_keys_timers R225). -/
  | ldSTVx (x : Nibble)
  /-- `Fx1E` ADD I, Vx: add to index (43_index_memory R191). -/
  | addI (x : Nibble)
  /-- `Fx29` LD F, Vx: font character address (43_index_memory R192). -/
  | ldF (x : Nibble)
  /-- `Fx33` LD B, Vx: store BCD (43_index_memory R193). -/
  | ldB (x : Nibble)
  /-- `Fx55` LD [I], Vx: register dump (43_index_memory R194). -/
  | ldMemVx (x : Nibble)
  /-- `Fx65` LD Vx, [I]: register load (43_index_memory R195). -/
  | ldVxMem (x : Nibble)
  deriving DecidableEq, Repr

/-- The instruction's mnemonic in spec/opcode_table.json (30_encoding R100). -/
def Instr.mnemonic : Instr → String
  | .cls => "CLS"
  | .ret => "RET"
  | .jp _ => "JP_addr"
  | .call _ => "CALL_addr"
  | .seByte .. => "SE_Vx__byte"
  | .sneByte .. => "SNE_Vx__byte"
  | .seReg .. => "SE_Vx__Vy"
  | .ldByte .. => "LD_Vx__byte"
  | .addByte .. => "ADD_Vx__byte"
  | .ldReg .. => "LD_Vx__Vy"
  | .orReg .. => "OR_Vx__Vy"
  | .andReg .. => "AND_Vx__Vy"
  | .xorReg .. => "XOR_Vx__Vy"
  | .addReg .. => "ADD_Vx__Vy"
  | .subReg .. => "SUB_Vx__Vy"
  | .shr .. => "SHR_Vx"
  | .subnReg .. => "SUBN_Vx__Vy"
  | .shl .. => "SHL_Vx"
  | .sneReg .. => "SNE_Vx__Vy"
  | .ldI _ => "LD_I__addr"
  | .jpV0 _ => "JP_V0__addr"
  | .rnd .. => "RND_Vx__byte"
  | .drw .. => "DRW_Vx__Vy__nibble"
  | .skp _ => "SKP_Vx"
  | .sknp _ => "SKNP_Vx"
  | .ldVxDT _ => "LD_Vx__DT"
  | .ldVxK _ => "LD_Vx__K"
  | .ldDTVx _ => "LD_DT__Vx"
  | .ldSTVx _ => "LD_ST__Vx"
  | .addI _ => "ADD_I__Vx"
  | .ldF _ => "LD_F__Vx"
  | .ldB _ => "LD_B__Vx"
  | .ldMemVx _ => "LD__I___Vx"
  | .ldVxMem _ => "LD_Vx___I"

end Sys2Proof
end

