-- ==== Sys2Proof/WellFormed.lean ====
section
/-! DEFINITION. The checks on what is given to the machine: an opcode (does it match a row of the opcode table?),
an operand (is it in the range of its field?) and a program image (does it fit?). -/

namespace Sys2Proof

/-- One row of the opcode table: an opcode `op` selects the row when `(op & mask) = pattern` (30_encoding R101). -/
structure OpcodeRow where
  mnemonic : String
  pattern  : Word
  mask     : Word
  deriving DecidableEq, Repr

/-- The rows of groups 0 to 7 of spec/opcode_table.json (30_encoding R93, R94, R96). -/
def OpcodeTable.lowGroups : List OpcodeRow :=
  [⟨"CLS", 0x00E0, 0xFFFF⟩, ⟨"RET", 0x00EE, 0xFFFF⟩, ⟨"JP_addr", 0x1000, 0xF000⟩,
   ⟨"CALL_addr", 0x2000, 0xF000⟩, ⟨"SE_Vx__byte", 0x3000, 0xF000⟩, ⟨"SNE_Vx__byte", 0x4000, 0xF000⟩,
   ⟨"SE_Vx__Vy", 0x5000, 0xF00F⟩, ⟨"LD_Vx__byte", 0x6000, 0xF000⟩, ⟨"ADD_Vx__byte", 0x7000, 0xF000⟩]

/-- The rows of group 8 of spec/opcode_table.json (30_encoding R95). -/
def OpcodeTable.aluGroup : List OpcodeRow :=
  [⟨"LD_Vx__Vy", 0x8000, 0xF00F⟩, ⟨"OR_Vx__Vy", 0x8001, 0xF00F⟩, ⟨"AND_Vx__Vy", 0x8002, 0xF00F⟩,
   ⟨"XOR_Vx__Vy", 0x8003, 0xF00F⟩, ⟨"ADD_Vx__Vy", 0x8004, 0xF00F⟩, ⟨"SUB_Vx__Vy", 0x8005, 0xF00F⟩,
   ⟨"SHR_Vx", 0x8006, 0xF00F⟩, ⟨"SUBN_Vx__Vy", 0x8007, 0xF00F⟩, ⟨"SHL_Vx", 0x800E, 0xF00F⟩]

/-- The rows of groups 9 to E of spec/opcode_table.json (30_encoding R93, R96, R97). -/
def OpcodeTable.highGroups : List OpcodeRow :=
  [⟨"SNE_Vx__Vy", 0x9000, 0xF00F⟩, ⟨"LD_I__addr", 0xA000, 0xF000⟩, ⟨"JP_V0__addr", 0xB000, 0xF000⟩,
   ⟨"RND_Vx__byte", 0xC000, 0xF000⟩, ⟨"DRW_Vx__Vy__nibble", 0xD000, 0xF000⟩,
   ⟨"SKP_Vx", 0xE09E, 0xF0FF⟩, ⟨"SKNP_Vx", 0xE0A1, 0xF0FF⟩]

/-- The rows of group F of spec/opcode_table.json (30_encoding R97). -/
def OpcodeTable.miscGroup : List OpcodeRow :=
  [⟨"LD_Vx__DT", 0xF007, 0xF0FF⟩, ⟨"LD_Vx__K", 0xF00A, 0xF0FF⟩, ⟨"LD_DT__Vx", 0xF015, 0xF0FF⟩,
   ⟨"LD_ST__Vx", 0xF018, 0xF0FF⟩, ⟨"ADD_I__Vx", 0xF01E, 0xF0FF⟩, ⟨"LD_F__Vx", 0xF029, 0xF0FF⟩,
   ⟨"LD_B__Vx", 0xF033, 0xF0FF⟩, ⟨"LD__I___Vx", 0xF055, 0xF0FF⟩, ⟨"LD_Vx___I", 0xF065, 0xF0FF⟩]

/-- The opcode table, 34 rows (30_encoding R100, R101). -/
def OpcodeTable.rows : List OpcodeRow :=
  OpcodeTable.lowGroups ++ OpcodeTable.aluGroup ++ OpcodeTable.highGroups ++ OpcodeTable.miscGroup

/-- Does the opcode select this row (30_encoding R101)? -/
def OpcodeRow.selects (row : OpcodeRow) (op : Word) : Bool := op &&& row.mask == row.pattern

/-- An opcode is well formed when it selects a row of the table; any other is unknown (30_encoding R98, R101). -/
def Opcode.wellFormed (op : Word) : Bool := OpcodeTable.rows.any (·.selects op)

/-- A raw operand of a field of `width` bits: every field is an unsigned number of its own width, so 0 to
`2 ^ width - 1` and nothing else (30_encoding R92). The fields of `Instr` have that width in their type, so no
instruction term can hold an operand that this check refuses. -/
def Operand.wellFormed (width value : Nat) : Bool := decide (value < 2 ^ width)

/-- An instruction is well formed when each operand fits its field (30_encoding R91, R92). The types of the fields
make this hold of every term (`Instr.wellFormed_of_typing` in Sys2Proof/Laws/Decode.lean). -/
def Instr.wellFormed : Instr → Bool
  | .cls | .ret => true
  | .jp nnn | .call nnn | .ldI nnn | .jpV0 nnn => Operand.wellFormed 12 nnn.toNat
  | .seByte x nn | .sneByte x nn | .ldByte x nn | .addByte x nn | .rnd x nn =>
      Operand.wellFormed 4 x.toNat && Operand.wellFormed 8 nn.toNat
  | .seReg x y | .ldReg x y | .orReg x y | .andReg x y | .xorReg x y | .addReg x y | .subReg x y | .shr x y
  | .subnReg x y | .shl x y | .sneReg x y => Operand.wellFormed 4 x.toNat && Operand.wellFormed 4 y.toNat
  | .drw x y n => Operand.wellFormed 4 x.toNat && Operand.wellFormed 4 y.toNat && Operand.wellFormed 4 n.toNat
  | .skp x | .sknp x | .ldVxDT x | .ldVxK x | .ldDTVx x | .ldSTVx x | .addI x | .ldF x | .ldB x | .ldMemVx x
  | .ldVxMem x => Operand.wellFormed 4 x.toNat

/-- A program image fits when it has at most 3584 = 4096 - 512 bytes (00_scope R5, 70_reset R282). -/
def Image.wellFormed (image : List Byte) : Bool := decide (image.length ≤ 3584)

end Sys2Proof
end

