-- ==== Sys2Proof/Decode.lean ====
section
/-! DEFINITION. Decoding an opcode (30_encoding R101), the encoder written from the same formats (30_encoding R91),
and the decoder on an instruction's bytes. -/

namespace Sys2Proof

/-! ## Fields of an opcode (00_scope R9) -/

/-- `top = op[15:12]`. -/
def Opcode.top (op : Word) : Nibble := op.extractLsb' 12 4

/-- `x = op[11:8]`. -/
def Opcode.x (op : Word) : Nibble := op.extractLsb' 8 4

/-- `y = op[7:4]`. -/
def Opcode.y (op : Word) : Nibble := op.extractLsb' 4 4

/-- `n = op[3:0]`. -/
def Opcode.n (op : Word) : Nibble := op.extractLsb' 0 4

/-- `nn = op[7:0]`. -/
def Opcode.nn (op : Word) : Byte := op.extractLsb' 0 8

/-- `nnn = op[11:0]`. -/
def Opcode.nnn (op : Word) : Addr := op.extractLsb' 0 12

/-! ## The decoder -/

/-- Why a decoder gives no instruction. -/
inductive DecodeReject where
  /-- The opcode selects no row of the opcode table (30_encoding R98). -/
  | unknownOpcode (op : Word)
  /-- Fewer than two bytes were given: an instruction has two (30_encoding R90). -/
  | truncated
  deriving DecidableEq, Repr

/-- Group 8, on the low nibble (30_encoding R95). -/
def decodeAlu (op : Word) : Except DecodeReject Instr :=
  match Opcode.n op with
  | 0x0#4 => .ok (.ldReg (Opcode.x op) (Opcode.y op))
  | 0x1#4 => .ok (.orReg (Opcode.x op) (Opcode.y op))
  | 0x2#4 => .ok (.andReg (Opcode.x op) (Opcode.y op))
  | 0x3#4 => .ok (.xorReg (Opcode.x op) (Opcode.y op))
  | 0x4#4 => .ok (.addReg (Opcode.x op) (Opcode.y op))
  | 0x5#4 => .ok (.subReg (Opcode.x op) (Opcode.y op))
  | 0x6#4 => .ok (.shr (Opcode.x op) (Opcode.y op))
  | 0x7#4 => .ok (.subnReg (Opcode.x op) (Opcode.y op))
  | 0xE#4 => .ok (.shl (Opcode.x op) (Opcode.y op))
  | _ => .error (.unknownOpcode op)

/-- Group E, on the low byte (30_encoding R97). -/
def decodeKey (op : Word) : Except DecodeReject Instr :=
  match Opcode.nn op with
  | 0x9E#8 => .ok (.skp (Opcode.x op))
  | 0xA1#8 => .ok (.sknp (Opcode.x op))
  | _ => .error (.unknownOpcode op)

/-- Group F, on the low byte (30_encoding R97). -/
def decodeMisc (op : Word) : Except DecodeReject Instr :=
  match Opcode.nn op with
  | 0x07#8 => .ok (.ldVxDT (Opcode.x op))
  | 0x0A#8 => .ok (.ldVxK (Opcode.x op))
  | 0x15#8 => .ok (.ldDTVx (Opcode.x op))
  | 0x18#8 => .ok (.ldSTVx (Opcode.x op))
  | 0x1E#8 => .ok (.addI (Opcode.x op))
  | 0x29#8 => .ok (.ldF (Opcode.x op))
  | 0x33#8 => .ok (.ldB (Opcode.x op))
  | 0x55#8 => .ok (.ldMemVx (Opcode.x op))
  | 0x65#8 => .ok (.ldVxMem (Opcode.x op))
  | _ => .error (.unknownOpcode op)

/-- The one decoder, total on opcodes: the instruction, or the rejection `unknownOpcode` (30_encoding R101). -/
def decode (op : Word) : Except DecodeReject Instr :=
  match Opcode.top op with
  | 0x0#4 =>
      if op = 0x00E0#16 then .ok .cls
      else if op = 0x00EE#16 then .ok .ret
      else .error (.unknownOpcode op)
  | 0x1#4 => .ok (.jp (Opcode.nnn op))
  | 0x2#4 => .ok (.call (Opcode.nnn op))
  | 0x3#4 => .ok (.seByte (Opcode.x op) (Opcode.nn op))
  | 0x4#4 => .ok (.sneByte (Opcode.x op) (Opcode.nn op))
  | 0x5#4 => if Opcode.n op = 0x0#4 then .ok (.seReg (Opcode.x op) (Opcode.y op)) else .error (.unknownOpcode op)
  | 0x6#4 => .ok (.ldByte (Opcode.x op) (Opcode.nn op))
  | 0x7#4 => .ok (.addByte (Opcode.x op) (Opcode.nn op))
  | 0x8#4 => decodeAlu op
  | 0x9#4 => if Opcode.n op = 0x0#4 then .ok (.sneReg (Opcode.x op) (Opcode.y op)) else .error (.unknownOpcode op)
  | 0xA#4 => .ok (.ldI (Opcode.nnn op))
  | 0xB#4 => .ok (.jpV0 (Opcode.nnn op))
  | 0xC#4 => .ok (.rnd (Opcode.x op) (Opcode.nn op))
  | 0xD#4 => .ok (.drw (Opcode.x op) (Opcode.y op) (Opcode.n op))
  | 0xE#4 => decodeKey op
  | _ => decodeMisc op

/-! ## Bytes: an opcode is stored high byte first (20_memory R63, R66) -/

/-- The opcode whose byte at the lower address is `hi`. -/
def Opcode.ofBytes (hi lo : Byte) : Word := hi ++ lo

/-- The byte of the opcode at the lower address. -/
def Opcode.hiByte (op : Word) : Byte := op.extractLsb' 8 8

/-- The byte of the opcode at the next address. -/
def Opcode.loByte (op : Word) : Byte := op.extractLsb' 0 8

/-- The decoder on any bytes: the instruction at their front and the bytes after it (30_encoding R90). -/
def decodeBytes : List Byte → Except DecodeReject (Instr × List Byte)
  | hi :: lo :: rest =>
      match decode (Opcode.ofBytes hi lo) with
      | .ok i => .ok (i, rest)
      | .error e => .error e
  | _ => .error .truncated

/-! ## The encoder (30_encoding R91) -/

/-- Format `NNN`. -/
def formatNNN (top : Nibble) (nnn : Addr) : Word := top ++ nnn

/-- Format `XNN`. -/
def formatXNN (top x : Nibble) (nn : Byte) : Word := top ++ x ++ nn

/-- Format `XYN`. -/
def formatXYN (top x y n : Nibble) : Word := top ++ x ++ y ++ n

/-- Format `XLL`: like `XNN`, the low byte being the sub-opcode. -/
def formatXLL (top x : Nibble) (ll : Byte) : Word := top ++ x ++ ll

/-- The opcode of an instruction. -/
def encode : Instr → Word
  | .cls => 0x00E0
  | .ret => 0x00EE
  | .jp nnn => formatNNN 0x1 nnn
  | .call nnn => formatNNN 0x2 nnn
  | .seByte x nn => formatXNN 0x3 x nn
  | .sneByte x nn => formatXNN 0x4 x nn
  | .seReg x y => formatXYN 0x5 x y 0x0
  | .ldByte x nn => formatXNN 0x6 x nn
  | .addByte x nn => formatXNN 0x7 x nn
  | .ldReg x y => formatXYN 0x8 x y 0x0
  | .orReg x y => formatXYN 0x8 x y 0x1
  | .andReg x y => formatXYN 0x8 x y 0x2
  | .xorReg x y => formatXYN 0x8 x y 0x3
  | .addReg x y => formatXYN 0x8 x y 0x4
  | .subReg x y => formatXYN 0x8 x y 0x5
  | .shr x y => formatXYN 0x8 x y 0x6
  | .subnReg x y => formatXYN 0x8 x y 0x7
  | .shl x y => formatXYN 0x8 x y 0xE
  | .sneReg x y => formatXYN 0x9 x y 0x0
  | .ldI nnn => formatNNN 0xA nnn
  | .jpV0 nnn => formatNNN 0xB nnn
  | .rnd x nn => formatXNN 0xC x nn
  | .drw x y n => formatXYN 0xD x y n
  | .skp x => formatXLL 0xE x 0x9E
  | .sknp x => formatXLL 0xE x 0xA1
  | .ldVxDT x => formatXLL 0xF x 0x07
  | .ldVxK x => formatXLL 0xF x 0x0A
  | .ldDTVx x => formatXLL 0xF x 0x15
  | .ldSTVx x => formatXLL 0xF x 0x18
  | .addI x => formatXLL 0xF x 0x1E
  | .ldF x => formatXLL 0xF x 0x29
  | .ldB x => formatXLL 0xF x 0x33
  | .ldMemVx x => formatXLL 0xF x 0x55
  | .ldVxMem x => formatXLL 0xF x 0x65

/-- The bytes of an instruction in memory order. -/
def encodeBytes (i : Instr) : List Byte := [Opcode.hiByte (encode i), Opcode.loByte (encode i)]

/-! ## The opcode table's numbering of bits -/

/-- The first word of an instruction whose bits are `w`, of which the table gives the low `nbits`; the bits above
them are 0. Every instruction is one word (30_encoding R90). -/
def tableWord (nbits w : Nat) : Word := BitVec.ofNat 16 (w % 2 ^ nbits)

/-- The instruction the decoder reads from the bytes of a word given in the opcode table's numbering. -/
def decodeTableWord (nbits w : Nat) : Option Instr :=
  match decodeBytes [Opcode.hiByte (tableWord nbits w), Opcode.loByte (tableWord nbits w)] with
  | .ok (i, _) => some i
  | .error _ => none

end Sys2Proof
end

