-- ==== Sys2Proof/Machine/Font.lean ====
section
/-! DEFINITION. The parameter `FONT` and its default value (00_scope R5, 10_state R33, decision D18; log entry 1). -/

namespace Sys2Proof.Machine

/-- A value of the parameter `FONT`: 80 bytes, 16 glyphs of 5 (00_scope R5, 10_state R33). -/
abbrev Font := Vector Byte 80

/-- Glyphs 0 to 7, five rows each, top row first (10_state R33). -/
def fontLow : List Byte :=
  [0xF0, 0x90, 0x90, 0x90, 0xF0,  0x20, 0x60, 0x20, 0x20, 0x70,
   0xF0, 0x10, 0xF0, 0x80, 0xF0,  0xF0, 0x10, 0xF0, 0x10, 0xF0,
   0x90, 0x90, 0xF0, 0x10, 0x10,  0xF0, 0x80, 0xF0, 0x10, 0xF0,
   0xF0, 0x80, 0xF0, 0x90, 0xF0,  0xF0, 0x10, 0x20, 0x40, 0x40]

/-- Glyphs 8 to F, five rows each, top row first (10_state R33). -/
def fontHigh : List Byte :=
  [0xF0, 0x90, 0xF0, 0x90, 0xF0,  0xF0, 0x90, 0xF0, 0x10, 0xF0,
   0xF0, 0x90, 0xF0, 0x90, 0x90,  0xE0, 0x90, 0xE0, 0x90, 0xE0,
   0xF0, 0x80, 0x80, 0x80, 0xF0,  0xE0, 0x90, 0x90, 0x90, 0xE0,
   0xF0, 0x80, 0xF0, 0x80, 0xF0,  0xF0, 0x80, 0xF0, 0x80, 0x80]

/-- The default value of `FONT` (10_state R33). -/
def defaultFont : Font := ⟨(fontLow ++ fontHigh).toArray, rfl⟩

/-- `FONT[k]` for `k` from 0 to 79: byte `k mod 5` of the glyph of the digit `k div 5` (10_state R33). No byte 80 or
above exists. -/
def fontByte (font : Font) (k : Nat) : Byte := if h : k < 80 then font[k] else 0

end Sys2Proof.Machine
end

