-- ==== Sys2Proof/Config.lean ====
section
/-! DEFINITION. What the spec leaves to the outside of the core. The parameter `FONT` is an
argument of the reset state, which carries it from then on (`State.resetWith` in Sys2Proof/Machine/State.lean, its
default value in Sys2Proof/Machine/Font.lean; log entry 1); the cadences `STEP_HZ` and `TIMER_HZ` are used by no rule
(00_scope R5, 70_reset R296) and have no definition. -/

namespace Sys2Proof

/-- FREE VALUE (42_alu R173, decision D19; log entry 3): the byte the random source answers at the draw with this
number. It has no body, so nothing can be proved of a draw but what holds for every byte. -/
opaque Config.randomByte : Nat → Byte

end Sys2Proof
end

