-- ==== Sys2Proof/Machine/State.lean ====
section
/-! DEFINITION. The state of the core (10_state R20), why a step can stop, and the state after reset
(10_state R38). -/

namespace Sys2Proof.Machine

/-- The causes a step fault can have, in the order of their codes 1 to 5 (60_exceptions R240). -/
inductive FaultCause where
  /-- Code 1, raised at decode (60_exceptions R241). -/
  | unknownOpcode
  /-- Code 2, raised by CALL (60_exceptions R242). -/
  | stackOverflow
  /-- Code 3, raised by RET (60_exceptions R243). -/
  | stackUnderflow
  /-- Code 4, raised by fetch, `Dxyn`, `Fx33`, `Fx55`, `Fx65` (60_exceptions R244). -/
  | addressOutOfRange
  /-- Code 5, raised by `Ex9E` and `ExA1` (60_exceptions R245). -/
  | keyIndexOutOfRange
  deriving DecidableEq, Repr

/-- What the fault latch holds when it is not `none` (10_state R32). -/
structure FaultRecord where
  /-- What went wrong. -/
  cause : FaultCause
  /-- The `pc` of the instruction that faulted. -/
  fpc : Word
  /-- Its opcode, or 0x0000 when the fetch itself faulted. -/
  fop : Word
  deriving DecidableEq, Repr

/-- The framebuffer, 32 rows of 64 pixels, row-major (10_state R30). -/
abbrev Framebuffer := Vector (Vector Bool 64) 32

/-- The memory: the bytes that differ from the memory's reset contents, at rising addresses
(`Memory.wf` in Sys2Proof/Machine/Memory.lean). -/
abbrev Memory := List Host.Cell

/-- The whole state of the core, under the spec's names (10_state R20). -/
structure State where
  /-- The memory of 4096 bytes (10_state R34). -/
  mem : Memory
  /-- The framebuffer (10_state R30). -/
  fb : Framebuffer
  /-- The general registers `V0` to `VF`; `VF` is also the flag (10_state R21, R22). -/
  V : Vector Byte 16
  /-- The entries of the call stack (10_state R25). -/
  stack : Vector Word 16
  /-- The number of entries in use, 0 to 16 (10_state R25). -/
  sp : Fin 17
  /-- The index register (10_state R24). -/
  I : Word
  /-- The program counter (10_state R23). -/
  pc : Word
  /-- The delay timer (10_state R26). -/
  DT : Byte
  /-- The sound timer (10_state R27). -/
  ST : Byte
  /-- The key latch (10_state R28). -/
  key : Vector Bool 16
  /-- The core waits for a key (10_state R29). -/
  awaitingKey : Bool
  /-- The register a key wait writes (10_state R29). -/
  keyTarget : Nibble
  /-- The redraw flag (10_state R31). -/
  redraw : Bool
  /-- The fault latch (10_state R32). -/
  fault : Option FaultRecord
  /-- THE MODEL'S OWN, not the spec's (log entry 3): how many random bytes have been drawn. -/
  rndDraws : Nat
  /-- THE PARAMETER `FONT` this machine was built with, and no element of the spec's state (00_scope R5, 10_state R33,
  R36; log entry 1). No operation writes it; reset fills 0x000 to 0x04F from it. -/
  font : Font
  deriving DecidableEq, Repr

/-- Why a step answers no next state. -/
inductive Fault where
  /-- Raised by `step`, and by nothing else, when the fault latch is set: the core is in the control state Faulted,
  executes nothing and reports the latched fault (40_step R121, 60_exceptions R254). Safe: the spec gives no
  progress after a fault either (log entry 5). -/
  | halted (latched : FaultRecord)
  deriving DecidableEq, Repr

/-- Why an instruction has no meaning. -/
inductive Refusal where
  /-- Raised by nothing: every instruction of the opcode table has its meaning. It would be safe. -/
  | notModelled (mnemonic : String)
  deriving DecidableEq, Repr

/-- The state right after reset of a machine with this `FONT` (10_state R38, 70_reset R280). The memory lists nothing:
an unlisted address reads as the reset contents, `FONT` and zeros. -/
def State.resetWith (font : Font) : State where
  mem := []
  fb := .replicate 32 (.replicate 64 false)
  V := .replicate 16 0
  stack := .replicate 16 0
  sp := 0
  I := 0
  pc := 0x200
  DT := 0
  ST := 0
  key := .replicate 16 false
  awaitingKey := false
  keyTarget := 0
  redraw := false
  fault := none
  rndDraws := 0
  font := font

/-- The state right after reset of the machine with the default `FONT` (10_state R33, R38). -/
def State.reset : State := State.resetWith defaultFont

end Sys2Proof.Machine
end

