-- ==== Sys2Proof/Machine/Memory.lean ====
section
/-! DEFINITION. The memory: its reset contents, reading and writing a byte, its canonical form, the range test, and
the runs of bytes the multi-byte instructions move (20_memory R60 to R68). -/

namespace Sys2Proof.Machine

/-- What an unlisted address reads as: the reset contents, `FONT` at 0x000 to 0x04F and 0x00 elsewhere
(10_state R38, 20_memory R61). -/
def Memory.resetByte (font : Font) (a : Nat) : Byte := if a ≤ 0x04F then fontByte font a else 0

/-- The byte `mem[a]` (20_memory R62, the case in range). -/
def Memory.read (font : Font) : Memory → Nat → Byte
  | [], a => Memory.resetByte font a
  | (k, v) :: rest, a => if k = a then v else Memory.read font rest a

/-- List the byte `v` at the address `a`, before the first listed address above `a`. -/
def Memory.list : Memory → Nat → Byte → Memory
  | [], a, v => [(a, v)]
  | (k, w) :: rest, a, v => if a < k then (a, v) :: (k, w) :: rest else (k, w) :: Memory.list rest a v

/-- Take the address `a` out of the list: it reads as at reset again. -/
def Memory.unlist (m : Memory) (a : Nat) : Memory := m.filter fun cell => cell.1 != a

/-- `mem[a] <- v` (20_memory R64, the case in range). -/
def Memory.write (font : Font) (m : Memory) (a : Nat) (v : Byte) : Memory :=
  if v = Memory.resetByte font a then Memory.unlist m a else Memory.list (Memory.unlist m a) a v

/-- The listed addresses are above `low`, rise strictly, exist, and hold no byte they would hold unlisted. -/
def Memory.wfAbove (font : Font) : Nat → Memory → Bool
  | _, [] => true
  | low, (k, v) :: rest =>
      decide (low ≤ k) && decide (k ≤ 0xFFF) && decide (v ≠ Memory.resetByte font k) && Memory.wfAbove font (k + 1) rest

/-- The memory's canonical form: equal memories are equal lists (20_memory R60 bounds the addresses). -/
def Memory.wf (font : Font) (m : Memory) : Bool := Memory.wfAbove font 0 m

/-- `InRange(a, k)` (20_memory R65): no wrap, the sum is a natural number. -/
def inRange (a k : Nat) : Bool := decide (k = 0 ∨ a + k - 1 ≤ 0xFFF)

/-- The `count` bytes from the address `a` up (20_memory R68). -/
def Memory.readBytes (font : Font) (m : Memory) (a count : Nat) : List Byte :=
  (List.range count).map fun k => m.read font (a + k)

/-- Write the bytes at `a`, `a + 1`, ... in order (20_memory R66, R68). -/
def Memory.writeBytes (font : Font) : Memory → Nat → List Byte → Memory
  | m, _, [] => m
  | m, a, v :: vs => Memory.writeBytes font (m.write font a v) (a + 1) vs

/-! ## The memory of a state, read and written over the machine's `FONT` -/

/-- `mem[a]`. -/
def State.byteAt (s : State) (a : Nat) : Byte := s.mem.read s.font a

/-- The `count` bytes from the address `a` up. -/
def State.bytesAt (s : State) (a count : Nat) : List Byte := s.mem.readBytes s.font a count

/-- Write the bytes at `a`, `a + 1`, ... in order. -/
def State.storeBytes (s : State) (a : Nat) (vs : List Byte) : State := { s with mem := s.mem.writeBytes s.font a vs }

/-- The memory of the state has its canonical form. -/
def State.memWf (s : State) : Bool := s.mem.wf s.font

end Sys2Proof.Machine
end

