-- ==== Sys2Proof/Machine/Operands.lean ====
section
/-! DEFINITION. The operand forms (30_encoding R92, 43_index_memory R196): general registers, register blocks,
immediate bytes and addresses, the effective address through `I`, keys, pixels, stack entries. -/

namespace Sys2Proof.Machine

/-! ## General registers (10_state R21) -/

/-- The number of `VF`, the register that is also the flag (10_state R22). -/
abbrev VF : Nibble := 0xF

/-- `V[x]`. -/
def State.readV (s : State) (x : Nibble) : Byte := s.V[x.toNat]'x.isLt

/-- `V[x] <- v`. -/
def State.writeV (s : State) (x : Nibble) (v : Byte) : State := { s with V := s.V.set x.toNat v x.isLt }

/-- The values of `V[0]` to `V[count - 1]` (43_index_memory R194). -/
def State.registerBlock (s : State) (count : Nat) : List Byte := s.V.toList.take count

/-- Put the bytes into the registers from number `k` up (43_index_memory R195). -/
def setRegisters : Vector Byte 16 → Nat → List Byte → Vector Byte 16
  | V, _, [] => V
  | V, k, v :: vs => setRegisters (V.setIfInBounds k v) (k + 1) vs

/-- How many registers a block move with operand `x` moves: `x + 1` (43_index_memory R194, R195). -/
def blockCount (x : Nibble) : Nat := x.toNat + 1

/-! ## Widening (00_scope R7) -/

/-- `zext_16` of a byte. -/
def zextByte (b : Byte) : Word := b.setWidth 16

/-- `zext_16` of a 12-bit address. -/
def zextAddr (nnn : Addr) : Word := nnn.setWidth 16

/-- `zext_8` of a key index (60_exceptions R258). -/
def zextNibble (k : Nibble) : Byte := k.setWidth 8

/-! ## The effective address of data (43_index_memory R196) -/

/-- `I` as a natural number: `I + k` is never reduced. -/
def State.indexAddr (s : State) : Nat := s.I.toNat

/-! ## Decimal digits (43_index_memory R193) -/

/-- The hundreds, tens and ones of a byte, each a whole byte. -/
def bcdDigits (v : Byte) : List Byte := [v / 100, v / 10 % 10, v % 10]

/-! ## Font addresses (43_index_memory R192) -/

/-- `zext_16(v) × 5`: the whole byte is multiplied. -/
def glyphAddr (v : Byte) : Word := zextByte v * 5

/-! ## Keys (10_state R28) -/

/-- `key[k] = 1`; no key above 15 exists. -/
def State.keyDown (s : State) (k : Nat) : Bool := if h : k < 16 then s.key[k] else false

/-- `key[k] <- pressed`. -/
def State.writeKey (s : State) (k : Nibble) (pressed : Bool) : State :=
  { s with key := s.key.set k.toNat pressed k.isLt }

/-- Is the value a key index, 0 to 15 (60_exceptions R245)? -/
def isKeyIndex (v : Byte) : Bool := decide (v.toNat ≤ 15)

/-! ## Pixels (10_state R30, 44_display R210) -/

/-- `fb[r][c]`; no pixel outside the 32 rows and 64 columns exists. -/
def Framebuffer.pixel (fb : Framebuffer) (r c : Nat) : Bool :=
  if h : r < 32 ∧ c < 64 then (fb[r]'h.1)[c]'h.2 else false

/-- `fb[r][c]` of a state. -/
def State.pixel (s : State) (r c : Nat) : Bool := Framebuffer.pixel s.fb r c

/-- The start column of a sprite, `V[x] mod 64` (44_display R212). -/
def startColumn (v : Byte) : Nat := v.toNat % 64

/-- The start row of a sprite, `V[y] mod 32` (44_display R212). -/
def startRow (v : Byte) : Nat := v.toNat % 32

/-- The bit of a sprite's row byte that stands `j` columns right of its start: bit `7 − j` (44_display R210). -/
def spriteBit (b : Byte) (j : Nat) : Bool := b.getLsbD (7 - j)

/-! ## Stack entries (10_state R25) -/

/-- `stack[k]`; no entry above 15 exists. -/
def State.stackEntry (s : State) (k : Nat) : Word := if h : k < 16 then s.stack[k] else 0

end Sys2Proof.Machine
end

