-- ==== Sys2Proof/Machine/Flags.lean ====
section
/-! DEFINITION. The flag computations: the value each flag-writing instruction puts into `VF` (10_state R22). -/

namespace Sys2Proof.Machine

/-- A flag as the 8-bit number 0x00 or 0x01 (42_alu R160 d). -/
def flagByte (f : Bool) : Byte := if f then 1 else 0

/-- `8xy4`: carry out of bit 7 of the 9-bit sum (42_alu R167). -/
def carryOut (a b : Byte) : Bool := decide (255 < a.toNat + b.toNat)

/-- `8xy5` and `8xy7`: 1 when `a − b` does not borrow, equality included (42_alu R168, R170). -/
def noBorrow (a b : Byte) : Bool := decide (b.toNat ≤ a.toNat)

/-- `8xy6`: the bit shifted out to the right, taken before the shift (42_alu R169). -/
def shiftedOutRight (a : Byte) : Bool := a.getLsbD 0

/-- `8xyE`: the bit shifted out to the left, taken before the shift (42_alu R171). -/
def shiftedOutLeft (a : Byte) : Bool := a.getLsbD 7

/-- `Fx1E`: carry out of bit 15 of the 17-bit sum (43_index_memory R191). -/
def indexCarryOut (i : Word) (v : Byte) : Bool := decide (0xFFFF < i.toNat + v.toNat)

end Sys2Proof.Machine
end

