-- ==== Sys2Proof/Machine/Ops.lean ====
section
/-! DEFINITION. The shared operations: advancing `pc` (40_step R125), writing a result and its flag (42_alu R160 c),
the call stack (41_flow R140, R141), taking a fault (60_exceptions R247), the fetch (40_step R123), placing an
instruction. There is NO return from a fault: no instruction and no handler returns from one, and only the host's
`reset` leaves the state Faulted (60_exceptions R250); so none stands beside `takeFault`. -/

namespace Sys2Proof.Machine

/-- The outcome of a step or of an instruction. -/
abbrev Result := Host.Outcome State Fault Refusal

/-! ## `pc` -/

/-- `advance(k)`: `pc <- (pc + k) mod 65536` (40_step R125). -/
def State.advance (s : State) (k : Word) : State := { s with pc := s.pc + k }

/-- `advance(4)` if the condition holds, else `advance(2)` (40_step R128). -/
def State.skipIf (s : State) (condition : Bool) : State := if condition then s.advance 4 else s.advance 2

/-- `pc <- target`. -/
def State.jump (s : State) (target : Word) : State := { s with pc := target }

/-! ## Results and flags -/

/-- `VF <- 1` or `VF <- 0`. -/
def State.writeFlag (s : State) (f : Bool) : State := s.writeV VF (flagByte f)

/-- Write the result to `V[x]`, then the flag to `VF`: the flag is the last write, so it stands when `x = 15`
(42_alu R160 c). -/
def State.writeResultAndFlag (s : State) (x : Nibble) (v : Byte) (f : Bool) : State := (s.writeV x v).writeFlag f

/-! ## The call stack -/

/-- `Push(v)`: none when `sp = 16` (StackOverflow), else the entry is written at the old count, which then rises
(41_flow R140). -/
def State.push (s : State) (v : Word) : Option State :=
  if h : s.sp.val < 16 then
    some { s with stack := s.stack.set s.sp.val v h, sp := ⟨s.sp.val + 1, Nat.succ_lt_succ h⟩ }
  else none

/-- `Pop()`: none when `sp = 0` (StackUnderflow), else the count falls and the entry at the new count is the result,
its bits unchanged (41_flow R141). -/
def State.pop (s : State) : Option (Word × State) :=
  if s.sp.val = 0 then none
  else some (s.stackEntry (s.sp.val - 1),
    { s with sp := ⟨s.sp.val - 1, Nat.lt_of_le_of_lt (Nat.sub_le _ _) s.sp.isLt⟩ })

/-! ## Taking a fault -/

/-- Fault entry: `fault <- (cause, pc, op)` and nothing else (60_exceptions R247). -/
def State.takeFault (s : State) (cause : FaultCause) (op : Word) : State :=
  { s with fault := some ⟨cause, s.pc, op⟩ }

/-- `raise F` in an instruction: the next state is the fault entry's, with the instruction's own opcode as `fop`
(60_exceptions R246, R247; log entries 4 and 7). -/
def raiseFault (cause : FaultCause) (i : Instr) (s : State) : Result := .next (s.takeFault cause (encode i))

/-- The numeric code of a cause (60_exceptions R240). -/
def FaultCause.code : FaultCause → Nat
  | .unknownOpcode => 1
  | .stackOverflow => 2
  | .stackUnderflow => 3
  | .addressOutOfRange => 4
  | .keyIndexOutOfRange => 5

/-! ## Memory accesses with their range test -/

/-- `MemRead(a, 1)`: none when the address does not exist (20_memory R62). -/
def State.memRead (s : State) (a : Nat) : Option Byte := if a > 0xFFF then none else some (s.byteAt a)

/-- `MemWrite(a, 1, v)`: none when the address does not exist (20_memory R64). -/
def State.memWrite (s : State) (a : Nat) (v : Byte) : Option State :=
  if a > 0xFFF then none else some (s.storeBytes a [v])

/-- `MemRead(pc, 2)`, big-endian: none when `pc > 0xFFE`, for the two bytes are at `pc` and `pc + 1` without a wrap
(20_memory R63, 40_step R123). -/
def State.fetch (s : State) : Option Word :=
  match s.memRead s.pc.toNat, s.memRead (s.pc.toNat + 1) with
  | some hi, some lo => some (Opcode.ofBytes hi lo)
  | _, _ => none

/-- The state in which the next fetch reads the opcode `op`: its bytes at `pc` and `pc + 1`, where they exist, and
the core neither Faulted nor AwaitingKey (log entry 9). -/
def State.placeOpcode (s : State) (op : Word) : State :=
  { if inRange s.pc.toNat 2 then s.storeBytes s.pc.toNat [Opcode.hiByte op, Opcode.loByte op] else s with
    awaitingKey := false
    fault := none }

/-! ## The frame of a step -/

/-- One fetch-decode-execute cycle, the tests in the order of 40_step R120; `execute` gives the 34 arms. -/
def cycle (execute : Instr → State → Result) (s : State) : Result :=
  match s.fault with
  | some latched => .fault (.halted latched)
  | none =>
    if s.awaitingKey then .next s
    else
      match s.fetch with
      | none => .next (s.takeFault .addressOutOfRange 0x0000)
      | some op =>
        match decode op with
        | .error _ => .next (s.takeFault .unknownOpcode op)
        | .ok i => execute i s

end Sys2Proof.Machine
end

