-- ==== Sys2Proof/Machine/Alu.lean ====
section
/-! DEFINITION. The register instructions and the random byte (42_alu). None can fault. -/

namespace Sys2Proof.Machine

/-- `6xnn`: `V[x] <- nn` (42_alu R161). -/
def execLdByte (x : Nibble) (nn : Byte) (s : State) : Result := .next ((s.writeV x nn).advance 2)

/-- `7xnn`: `V[x] <- (V[x] + nn) mod 256`, no flag (42_alu R162). -/
def execAddByte (x : Nibble) (nn : Byte) (s : State) : Result := .next ((s.writeV x (s.readV x + nn)).advance 2)

/-- `8xy0`: `V[x] <- V[y]` (42_alu R163). -/
def execLdReg (x y : Nibble) (s : State) : Result := .next ((s.writeV x (s.readV y)).advance 2)

/-- `8xy1`: `V[x] <- V[x] | V[y]`, no flag (42_alu R164). -/
def execOrReg (x y : Nibble) (s : State) : Result := .next ((s.writeV x (s.readV x ||| s.readV y)).advance 2)

/-- `8xy2`: `V[x] <- V[x] & V[y]`, no flag (42_alu R165). -/
def execAndReg (x y : Nibble) (s : State) : Result := .next ((s.writeV x (s.readV x &&& s.readV y)).advance 2)

/-- `8xy3`: `V[x] <- V[x] ^ V[y]`, no flag (42_alu R166). -/
def execXorReg (x y : Nibble) (s : State) : Result := .next ((s.writeV x (s.readV x ^^^ s.readV y)).advance 2)

/-- `8xy4`: the sum, `VF` the carry (42_alu R167). -/
def execAddReg (x y : Nibble) (s : State) : Result :=
  .next ((s.writeResultAndFlag x (s.readV x + s.readV y) (carryOut (s.readV x) (s.readV y))).advance 2)

/-- `8xy5`: `V[x] − V[y]`, `VF` = no borrow (42_alu R168). -/
def execSubReg (x y : Nibble) (s : State) : Result :=
  .next ((s.writeResultAndFlag x (s.readV x - s.readV y) (noBorrow (s.readV x) (s.readV y))).advance 2)

/-- `8xy6`: `V[x] >> 1`, `VF` = old bit 0; `y` is ignored (42_alu R169). -/
def execShr (x _y : Nibble) (s : State) : Result :=
  .next ((s.writeResultAndFlag x (s.readV x >>> 1) (shiftedOutRight (s.readV x))).advance 2)

/-- `8xy7`: `V[y] − V[x]`, `VF` = no borrow (42_alu R170). -/
def execSubnReg (x y : Nibble) (s : State) : Result :=
  .next ((s.writeResultAndFlag x (s.readV y - s.readV x) (noBorrow (s.readV y) (s.readV x))).advance 2)

/-- `8xyE`: `V[x] << 1`, `VF` = old bit 7; `y` is ignored (42_alu R171). -/
def execShl (x _y : Nibble) (s : State) : Result :=
  .next ((s.writeResultAndFlag x (s.readV x <<< 1) (shiftedOutLeft (s.readV x))).advance 2)

/-- `draw_rnd()`: the next random byte, a free value, and the state that has drawn it (42_alu R173). -/
def State.drawRnd (s : State) : Byte × State := (Config.randomByte s.rndDraws, { s with rndDraws := s.rndDraws + 1 })

/-- `Cxnn`: `V[x] <- draw_rnd() & nn` (42_alu R172). -/
def execRnd (x : Nibble) (nn : Byte) (s : State) : Result :=
  .next ((s.drawRnd.2.writeV x (s.drawRnd.1 &&& nn)).advance 2)

end Sys2Proof.Machine
end

