-- ==== Sys2Proof/Machine/Display.lean ====
section
/-! DEFINITION. The display instructions: clear screen and draw sprite (44_display). -/

namespace Sys2Proof.Machine

/-- All 2048 pixels 0 (44_display R211). -/
def Framebuffer.clear : Framebuffer := .replicate 32 (.replicate 64 false)

/-- What drawing changes: the framebuffer and the collision flag `hit` (44_display R212). -/
structure Canvas where
  fb : Framebuffer
  hit : Bool
  deriving DecidableEq, Repr

/-- Draw a sprite bit of 1 at row `r` and column `c`: dropped outside the screen, else the pixel is inverted and a
set pixel turned off is a hit (44_display R212). -/
def Canvas.flip (canvas : Canvas) (r c : Nat) : Canvas :=
  if h : r ≤ 31 ∧ c ≤ 63 then
    have hr : r < 32 := Nat.lt_succ_of_le h.1
    have hc : c < 64 := Nat.lt_succ_of_le h.2
    { fb := canvas.fb.set r (canvas.fb[r].set c (canvas.fb[r][c] ^^ true))
      hit := canvas.hit || canvas.fb[r][c] }
  else canvas

/-- Draw the bits `j`, `j + 1`, ... (`count` of them) of a sprite's row byte (44_display R212, the loop over `j`). -/
def Canvas.drawBits (canvas : Canvas) (r x0 : Nat) (b : Byte) : Nat → Nat → Canvas
  | _, 0 => canvas
  | j, count + 1 =>
      Canvas.drawBits (if spriteBit b j then canvas.flip r (x0 + j) else canvas) r x0 b (j + 1) count

/-- Draw the rows of a sprite from row `r` down (44_display R212, the loop over `k`). -/
def Canvas.drawRows (canvas : Canvas) (x0 : Nat) : Nat → List Byte → Canvas
  | _, [] => canvas
  | r, b :: bs => Canvas.drawRows (canvas.drawBits r x0 b 0 8) x0 (r + 1) bs

/-- The sprite `rows` drawn on a framebuffer from column `x0` and row `y0`, no hit yet (44_display R212). -/
def drawSprite (fb : Framebuffer) (x0 y0 : Nat) (rows : List Byte) : Canvas :=
  Canvas.drawRows ⟨fb, false⟩ x0 y0 rows

/-- `00E0`: the screen is cleared, redraw requested, `VF` not written (44_display R211). -/
def execCls (s : State) : Result := .next (State.advance { s with fb := Framebuffer.clear, redraw := true } 2)

/-- `Dxyn`: XOR the `n` sprite bytes at `I` onto the screen from `(V[x] mod 64, V[y] mod 32)`, clipped at the edges,
`VF` the collision; AddressOutOfRange when the `n` bytes do not all exist (44_display R212). -/
def execDrw (x y n : Nibble) (s : State) : Result :=
  if inRange s.indexAddr n.toNat then
    let canvas := drawSprite s.fb (startColumn (s.readV x)) (startRow (s.readV y)) (s.bytesAt s.indexAddr n.toNat)
    .next ((State.writeFlag { s with fb := canvas.fb, redraw := true } canvas.hit).advance 2)
  else raiseFault .addressOutOfRange (.drw x y n) s

end Sys2Proof.Machine
end

