-- ==== Sys2Proof/Machine/Flow.lean ====
section
/-! DEFINITION. Control transfer: return, jump, call, the skips on registers, jump with offset (41_flow). -/

namespace Sys2Proof.Machine

/-- `00EE`: `pc <- Pop() + 2`; StackUnderflow when `sp = 0` (41_flow R142). -/
def execRet (s : State) : Result :=
  match s.pop with
  | none => raiseFault .stackUnderflow .ret s
  | some (a, s') => .next (s'.jump (a + 2))

/-- `1nnn`: `pc <- nnn` (41_flow R143). -/
def execJp (nnn : Addr) (s : State) : Result := .next (s.jump (zextAddr nnn))

/-- `2nnn`: `Push(pc)`, the address of this CALL, then `pc <- nnn`; StackOverflow when `sp = 16` (41_flow R144). -/
def execCall (nnn : Addr) (s : State) : Result :=
  match s.push s.pc with
  | none => raiseFault .stackOverflow (.call nnn) s
  | some s' => .next (s'.jump (zextAddr nnn))

/-- `3xnn`: skip if `V[x] = nn` (41_flow R145). -/
def execSeByte (x : Nibble) (nn : Byte) (s : State) : Result := .next (s.skipIf (s.readV x == nn))

/-- `4xnn`: skip if `V[x] != nn` (41_flow R146). -/
def execSneByte (x : Nibble) (nn : Byte) (s : State) : Result := .next (s.skipIf (s.readV x != nn))

/-- `5xy0`: skip if `V[x] = V[y]` (41_flow R147). -/
def execSeReg (x y : Nibble) (s : State) : Result := .next (s.skipIf (s.readV x == s.readV y))

/-- `9xy0`: skip if `V[x] != V[y]` (41_flow R148). -/
def execSneReg (x y : Nibble) (s : State) : Result := .next (s.skipIf (s.readV x != s.readV y))

/-- `Bnnn`: `pc <- (nnn + V[0]) mod 65536`, no flag (41_flow R149). -/
def execJpV0 (nnn : Addr) (s : State) : Result := .next (s.jump (zextAddr nnn + zextByte (s.readV 0)))

end Sys2Proof.Machine
end

