-- ==== Sys2Proof/Machine/Index.lean ====
section
/-! DEFINITION. The index register and the memory instructions (43_index_memory). -/

namespace Sys2Proof.Machine

/-- `Annn`: `I <- nnn` (43_index_memory R190). -/
def execLdI (nnn : Addr) (s : State) : Result := .next (State.advance { s with I := zextAddr nnn } 2)

/-- `Fx1E`: `I <- (I + V[x]) mod 65536`, `VF` = carry out of bit 15 (43_index_memory R191). -/
def execAddI (x : Nibble) (s : State) : Result :=
  .next ((State.writeFlag { s with I := s.I + zextByte (s.readV x) } (indexCarryOut s.I (s.readV x))).advance 2)

/-- `Fx29`: `I <- V[x] × 5` (43_index_memory R192). -/
def execLdF (x : Nibble) (s : State) : Result := .next (State.advance { s with I := glyphAddr (s.readV x) } 2)

/-- `Fx33`: the decimal digits of `V[x]` to `mem[I..I+2]`; AddressOutOfRange when they do not fit
(43_index_memory R193). -/
def execLdB (x : Nibble) (s : State) : Result :=
  if inRange s.indexAddr 3 then
    .next ((s.storeBytes s.indexAddr (bcdDigits (s.readV x))).advance 2)
  else raiseFault .addressOutOfRange (.ldB x) s

/-- `Fx55`: `V[0..x]` to `mem[I..I+x]`, then `I` rises by `x + 1`; AddressOutOfRange when they do not fit
(43_index_memory R194). -/
def execLdMemVx (x : Nibble) (s : State) : Result :=
  if inRange s.indexAddr (blockCount x) then
    .next (State.advance { s.storeBytes s.indexAddr (s.registerBlock (blockCount x)) with
      I := s.I + BitVec.ofNat 16 (blockCount x) } 2)
  else raiseFault .addressOutOfRange (.ldMemVx x) s

/-- `Fx65`: `mem[I..I+x]` to `V[0..x]`, then `I` rises by `x + 1`; AddressOutOfRange when they do not fit
(43_index_memory R195). -/
def execLdVxMem (x : Nibble) (s : State) : Result :=
  if inRange s.indexAddr (blockCount x) then
    .next (State.advance { s with
      V := setRegisters s.V 0 (s.bytesAt s.indexAddr (blockCount x))
      I := s.I + BitVec.ofNat 16 (blockCount x) } 2)
  else raiseFault .addressOutOfRange (.ldVxMem x) s

end Sys2Proof.Machine
end

