-- ==== Sys2Proof/Machine/KeysTimers.lean ====
section
/-! DEFINITION. The key and timer instructions (45_keys_timers). -/

namespace Sys2Proof.Machine

/-- `Ex9E`: skip if the key whose index is in `V[x]` is pressed; KeyIndexOutOfRange above 15 (45_keys_timers R220). -/
def execSkp (x : Nibble) (s : State) : Result :=
  if isKeyIndex (s.readV x) then .next (s.skipIf (s.keyDown (s.readV x).toNat))
  else raiseFault .keyIndexOutOfRange (.skp x) s

/-- `ExA1`: skip if the key whose index is in `V[x]` is not pressed; KeyIndexOutOfRange above 15
(45_keys_timers R221). -/
def execSknp (x : Nibble) (s : State) : Result :=
  if isKeyIndex (s.readV x) then .next (s.skipIf (!s.keyDown (s.readV x).toNat))
  else raiseFault .keyIndexOutOfRange (.sknp x) s

/-- `Fx07`: `V[x] <- DT` (45_keys_timers R222). -/
def execLdVxDT (x : Nibble) (s : State) : Result := .next ((s.writeV x s.DT).advance 2)

/-- `Fx0A`: the core begins to wait for a key press, which will write `V[x]` (45_keys_timers R223). -/
def execLdVxK (x : Nibble) (s : State) : Result :=
  .next (State.advance { s with awaitingKey := true, keyTarget := x } 2)

/-- `Fx15`: `DT <- V[x]` (45_keys_timers R224). -/
def execLdDTVx (x : Nibble) (s : State) : Result := .next (State.advance { s with DT := s.readV x } 2)

/-- `Fx18`: `ST <- V[x]` (45_keys_timers R225). -/
def execLdSTVx (x : Nibble) (s : State) : Result := .next (State.advance { s with ST := s.readV x } 2)

end Sys2Proof.Machine
end

