-- ==== Sys2Proof/Machine/Step.lean ====
section
/-! DEFINITION. One step of the core (40_step R120), and placing an instruction where the next step fetches it. -/

namespace Sys2Proof.Machine

/-- One fetch-decode-execute cycle with the 34 instructions (40_step R120). -/
def step (s : State) : Host.Outcome State Fault Refusal := cycle exec s

/-- `s` with the instruction of bits `w`, numbered as the opcode table numbers them, where `step` fetches its next
instruction. It stands for the host's `load` (70_reset R282, R284; log entry 9). -/
def State.withFetchWord (s : State) (nbits w : Nat) : State := s.placeOpcode (tableWord nbits w)

end Sys2Proof.Machine
end

