-- ==== Sys2Proof/Machine/Interface.lean ====
section
/-! DEFINITION. The host interface (60_exceptions R255 to R262, 70_reset R280 to R287): the operations the host
performs on the core one at a time, what each reports, the outputs it reads, and the control states. -/

namespace Sys2Proof.Machine

/-! ## The operations -/

/-- `reset`: every element of the spec's state to its reset value, whatever the state before (70_reset R280, R281).
The parameter `FONT` stays (log entry 1), and the model's own count of random draws goes on, so that no draw after a
reset repeats one before it (log entry 3). -/
def reset (s : State) : State := { State.resetWith s.font with rndDraws := s.rndDraws }

/-- `load(image)`: the image to `mem[0x200..]` and nothing else, in any state; none is ImageTooLarge
(70_reset R282, R283, R287). -/
def load (image : List Byte) (s : State) : Option State :=
  if Image.wellFormed image then some (s.storeBytes 0x200 image) else none

/-- A timer counts down by 1, to a floor of 0 (60_exceptions R257). -/
def countDown (t : Byte) : Byte := if t.toNat > 0 then t - 1 else t

/-- `tick_timers`: both timers count down, unless the core waits for a key; not dependent on `fault`
(60_exceptions R257). -/
def tickTimers (s : State) : State :=
  if s.awaitingKey then s else { s with DT := countDown s.DT, ST := countDown s.ST }

/-- `set_key(index, pressed)`: the latch takes the level; a press ends a key wait and writes the index to
`V[keyTarget]` (60_exceptions R258). -/
def setKey (index : Nibble) (pressed : Bool) (s : State) : State :=
  if pressed && s.awaitingKey then
    { (s.writeKey index pressed).writeV s.keyTarget (zextNibble index) with awaitingKey := false }
  else s.writeKey index pressed

/-- `ack_redraw`: `redraw <- 0` (60_exceptions R259). -/
def ackRedraw (s : State) : State := { s with redraw := false }

/-- The operations of the host on the core (60_exceptions R255). -/
inductive Operation where
  | reset
  | load (image : List Byte)
  | step
  | tickTimers
  | setKey (index : Nibble) (pressed : Bool)
  | ackRedraw
  deriving DecidableEq, Repr

/-- What an operation reports to its caller (40_step R127, 60_exceptions R248, R254). -/
inductive Report where
  /-- Done. -/
  | ok
  /-- `load` only: the image is too long and nothing was written (code 6 of 60_exceptions R240). -/
  | imageTooLarge
  /-- `step` only: the fault that this step latched, or that was latched before it. -/
  | fault (record : FaultRecord)
  deriving DecidableEq, Repr

/-- What a `step` that ends in this state reports: the latched fault, if there is one (40_step R127). -/
def State.stepReport (s : State) : Report :=
  match s.fault with
  | some r => .fault r
  | none => .ok

/-- The state and the report that the outcome of a step or of an instruction leaves the host with: the next state
and the fault latched in it, if any; without a next state, the state as it was and the fault already latched
(40_step R127, 60_exceptions R247, R254). The case `refused` is reached by no step. -/
def settle (s : State) : Result → State × Report
  | .next t => (t, t.stepReport)
  | .fault _ => (s, s.stepReport)
  | .refused _ => (s, s.stepReport)

/-- `step` as the host performs it: the state after it and its report. A Faulted core is left as it is and reports
the latched fault (40_step R120, R121, R127). -/
def stepOperation (s : State) : State × Report := settle s (step s)

/-- One operation: the state after it and its report (60_exceptions R255, R256). -/
def operate : Operation → State → State × Report
  | .reset, s => (reset s, .ok)
  | .load image, s =>
      match load image s with
      | some t => (t, .ok)
      | none => (s, .imageTooLarge)
  | .step, s => stepOperation s
  | .tickTimers, s => (tickTimers s, .ok)
  | .setKey index pressed, s => (setKey index pressed s, .ok)
  | .ackRedraw, s => (ackRedraw s, .ok)

/-- Any sequence of operations, one at a time, in any order (60_exceptions R262, 70_reset R284). -/
def operateAll : List Operation → State → State
  | [], s => s
  | op :: ops, s => operateAll ops (operate op s).1

/-! ## The outputs -/

/-- `sound_active = (ST > 0)` (60_exceptions R261). -/
def State.soundActive (s : State) : Bool := decide (s.ST.toNat > 0)

/-- What the host can read, and nothing else (10_state R39, 60_exceptions R260). -/
structure Outputs where
  fb : Framebuffer
  soundActive : Bool
  redraw : Bool
  DT : Byte
  ST : Byte
  fault : Option FaultRecord
  deriving DecidableEq, Repr

/-- The outputs in a state. -/
def State.outputs (s : State) : Outputs := ⟨s.fb, s.soundActive, s.redraw, s.DT, s.ST, s.fault⟩

/-! ## The control states -/

/-- The control states of the core (10_state R35). -/
inductive ControlState where
  | running
  | awaitingKey
  | faulted
  deriving DecidableEq, Repr

/-- The control state is a function of the fault latch and of `awaitingKey` (10_state R35). -/
def State.control (s : State) : ControlState :=
  if s.fault.isSome then .faulted else if s.awaitingKey then .awaitingKey else .running

end Sys2Proof.Machine
end

