-- ==== Sys2Proof/Safety.lean ====
section
/-! DEFINITION. The terms claims use: the invariant of the core (10_state R40), what an instruction may write
(10_state R37), and that a state differs from another in some elements only. -/

namespace Sys2Proof.Machine

/-! ## The invariant -/

/-- A fault and a key wait never hold together (10_state R40 b). -/
def State.noFaultWhileWaiting (s : State) : Prop := ¬ (s.awaitingKey = true ∧ s.fault.isSome = true)

/-- Every entry in use holds the address of a CALL that was fetched (10_state R40 e). -/
def State.stackHoldsCalls (s : State) : Prop := ∀ k, k < s.sp.val → (s.stackEntry k).toNat ≤ 0xFFE

/-- No instruction writes more than 0xFFF + 0xFF to `pc` (10_state R23). -/
def State.pcBounded (s : State) : Prop := s.pc.toNat ≤ 0x10FE

/-- The latch names the instruction `pc` still points at (60_exceptions R246). -/
def State.latchNamesPc (s : State) : Prop := ∀ r, s.fault = some r → r.fpc = s.pc

/-- The invariant of the core: the memory has its canonical form within 4096 bytes, and the rules above hold. That
`sp` is at most 16 (10_state R40 a) is in its type. -/
structure State.Inv (s : State) : Prop where
  memory : s.memWf = true
  waiting : s.noFaultWhileWaiting
  stack : s.stackHoldsCalls
  pc : s.pcBounded
  latch : s.latchNamesPc

/-- The core executes an instruction at the next step: neither Faulted nor AwaitingKey, and `pc` is in memory
(40_step R120). -/
def State.ready (s : State) : Prop := s.fault = none ∧ s.awaitingKey = false ∧ s.pc.toNat ≤ 0xFFE

/-- The opcode at `pc`, high byte first (20_memory R63). -/
def State.opcodeAtPc (s : State) : Word := Opcode.ofBytes (s.byteAt s.pc.toNat) (s.byteAt (s.pc.toNat + 1))

/-- The outcome raises this fault: the latch takes the cause, `pc` and the opcode, nothing else changes, and the fault
is reported to the caller (60_exceptions R247). -/
def latches (s : State) (outcome : Result) (cause : FaultCause) (op : Word) : Prop :=
  settle s outcome = ({ s with fault := some ⟨cause, s.pc, op⟩ }, .fault ⟨cause, s.pc, op⟩)

/-! ## Differing in some elements only -/

/-- The elements of the spec's state (10_state R20), the model's own count of random draws, and the parameter `FONT`. -/
inductive Element where
  | mem | fb | V | stack | sp | I | pc | DT | ST | key | awaitingKey | keyTarget | redraw | fault | rndDraws
  | font
  deriving DecidableEq, Repr

/-- The element reads the same in both states: every byte of memory, every pixel, every register, every entry. -/
def Element.same : Element → State → State → Prop
  | .mem, s, t => ∀ a, t.byteAt a = s.byteAt a
  | .fb, s, t => ∀ r c, t.pixel r c = s.pixel r c
  | .V, s, t => ∀ x, t.readV x = s.readV x
  | .stack, s, t => ∀ k, t.stackEntry k = s.stackEntry k
  | .sp, s, t => t.sp = s.sp
  | .I, s, t => t.I = s.I
  | .pc, s, t => t.pc = s.pc
  | .DT, s, t => t.DT = s.DT
  | .ST, s, t => t.ST = s.ST
  | .key, s, t => ∀ k, t.keyDown k = s.keyDown k
  | .awaitingKey, s, t => t.awaitingKey = s.awaitingKey
  | .keyTarget, s, t => t.keyTarget = s.keyTarget
  | .redraw, s, t => t.redraw = s.redraw
  | .fault, s, t => t.fault = s.fault
  | .rndDraws, s, t => t.rndDraws = s.rndDraws
  | .font, s, t => t.font = s.font

/-- Every element but those listed reads the same in `t` as in `s`. -/
def sameBut (written : List Element) (s t : State) : Prop := ∀ e, e ∉ written → e.same s t

/-- The bytes of memory outside the `count` bytes at `a` read the same. -/
def sameMemoryOutside (a count : Nat) (s t : State) : Prop :=
  ∀ b, b < a ∨ a + count ≤ b → t.byteAt b = s.byteAt b

/-- The registers outside the list read the same. -/
def sameRegistersBut (written : List Nibble) (s t : State) : Prop := ∀ x, x ∉ written → t.readV x = s.readV x

/-! ## The reset values -/

/-- Every element of the spec's state has its reset value on the machine with this `FONT` (10_state R38). -/
structure State.HasResetValues (font : Font) (t : State) : Prop where
  glyphs : ∀ a, a ≤ 0x04F → t.byteAt a = fontByte font a
  zeros : ∀ a, 0x04F < a → t.byteAt a = 0
  fb : ∀ r c, t.pixel r c = false
  V : ∀ x, t.readV x = 0
  stack : ∀ k, t.stackEntry k = 0
  sp : t.sp.val = 0
  I : t.I = 0
  pc : t.pc = 0x200
  DT : t.DT = 0
  ST : t.ST = 0
  key : ∀ k, t.keyDown k = false
  awaitingKey : t.awaitingKey = false
  keyTarget : t.keyTarget = 0
  redraw : t.redraw = false
  fault : t.fault = none

end Sys2Proof.Machine

namespace Sys2Proof

open Machine

/-! ## What an instruction writes, and when it faults -/

/-- The elements an instruction writes when it completes (10_state R37). -/
def Instr.writes : Instr → List Element
  | .cls => [.fb, .redraw, .pc]
  | .ret => [.sp, .pc]
  | .call _ => [.stack, .sp, .pc]
  | .jp _ | .jpV0 _ | .seByte .. | .sneByte .. | .seReg .. | .sneReg .. | .skp _ | .sknp _ => [.pc]
  | .ldByte .. | .addByte .. | .ldReg .. | .orReg .. | .andReg .. | .xorReg .. | .addReg .. | .subReg ..
  | .shr .. | .subnReg .. | .shl .. | .ldVxDT _ => [.V, .pc]
  | .rnd .. => [.V, .pc, .rndDraws]
  | .ldI _ | .ldF _ => [.I, .pc]
  | .addI _ => [.I, .V, .pc]
  | .ldB _ => [.mem, .pc]
  | .ldMemVx _ => [.mem, .I, .pc]
  | .ldVxMem _ => [.V, .I, .pc]
  | .drw .. => [.fb, .V, .redraw, .pc]
  | .ldVxK _ => [.awaitingKey, .keyTarget, .pc]
  | .ldDTVx _ => [.DT, .pc]
  | .ldSTVx _ => [.ST, .pc]

/-- The general registers an instruction writes when it completes, the flag `VF` among them where the instruction
writes it as a flag (10_state R22, R37). -/
def Instr.writesRegister : Instr → Nibble → Bool
  | .ldByte x _, r | .addByte x _, r | .ldReg x _, r | .orReg x _, r | .andReg x _, r | .xorReg x _, r
  | .rnd x _, r | .ldVxDT x, r => r == x
  | .addReg x _, r | .subReg x _, r | .shr x _, r | .subnReg x _, r | .shl x _, r => r == x || r == VF
  | .addI _, r | .drw .., r => r == VF
  | .ldVxMem x, r => decide (r.toNat ≤ x.toNat)
  | _, _ => false

/-- The seven instructions that write `VF` as a flag (10_state R22). -/
def Instr.writesFlag : Instr → Bool
  | .addReg .. | .subReg .. | .shr .. | .subnReg .. | .shl .. | .addI _ | .drw .. => true
  | _ => false

/-- How many bytes an instruction stores at `I` (20_memory R68). -/
def Instr.storedBytes : Instr → Nat
  | .ldB _ => 3
  | .ldMemVx x => blockCount x
  | _ => 0

/-- The fault an instruction raises in this state, if its one fault condition holds (60_exceptions R240, R249). -/
def Instr.faults : Instr → State → Option FaultCause
  | .ret, s => if s.sp.val = 0 then some .stackUnderflow else none
  | .call _, s => if s.sp.val = 16 then some .stackOverflow else none
  | .drw _ _ n, s => if 0xFFF < s.I.toNat + n.toNat - 1 ∧ n.toNat ≠ 0 then some .addressOutOfRange else none
  | .ldB _, s => if 0xFFD < s.I.toNat then some .addressOutOfRange else none
  | .ldMemVx x, s | .ldVxMem x, s => if 0xFFF < s.I.toNat + x.toNat then some .addressOutOfRange else none
  | .skp x, s | .sknp x, s => if 15 < (s.readV x).toNat then some .keyIndexOutOfRange else none
  | _, _ => none

end Sys2Proof
end

