-- ==== Sys2Proof/Certificates/Slice0/Obligations.lean ====
section
/-! DEFINITION. The statements for the provers. `sameBut es s t` is the frame: every element of the state that is not
listed reads the same (Sys2Proof/Safety.lean). -/

open Sys2Proof Sys2Proof.Machine

/-! ## Encoding -/

/-- Words of each family, written out from 30_encoding R91 and R93 to R97, decode to the instructions they stand
for; two words beside them are unknown. -/
def Obligations.SampleWordsDecode : Prop :=
  decode 0x00E0 = .ok .cls ∧ decode 0x00EE = .ok .ret ∧ decode 0x10E0 = .ok (.jp 0x0E0) ∧
  decode 0x3144 = .ok (.seByte 1 0x44) ∧ decode 0x812E = .ok (.shl 1 2) ∧ decode 0xB300 = .ok (.jpV0 0x300) ∧
  decode 0xD8A5 = .ok (.drw 8 0xA 5) ∧ decode 0xE1A1 = .ok (.sknp 1) ∧ decode 0xF165 = .ok (.ldVxMem 1) ∧
  decode 0x5121 = .error (.unknownOpcode 0x5121) ∧ decode 0x0000 = .error (.unknownOpcode 0x0000)

/-- Every instruction, with every operand, is what its own encoding decodes to, as a word and as bytes in memory
order. -/
def Obligations.DecodeOfEncodeIsIdentity : Prop :=
  ∀ i : Instr, decode (encode i) = .ok i ∧ ∀ rest, decodeBytes (encodeBytes i ++ rest) = .ok (i, rest)

/-- An opcode that decodes is the encoding of what it decodes to: no bit is dropped, the ignored `y` of the shifts
among them. -/
def Obligations.EncodeOfDecodeIsIdentity : Prop :=
  ∀ (op : Word) (i : Instr), decode op = .ok i → encode i = op

/-- The decoder and the opcode table agree: an opcode decodes exactly when it selects a row, it selects one row only,
and that row has the instruction's mnemonic. -/
def Obligations.DecoderAgreesWithOpcodeTable : Prop :=
  (∀ op : Word, (∃ i, decode op = .ok i) ↔ ∃ row ∈ OpcodeTable.rows, op &&& row.mask = row.pattern) ∧
  (∀ (op : Word), ∀ row ∈ OpcodeTable.rows, ∀ row' ∈ OpcodeTable.rows,
    op &&& row.mask = row.pattern → op &&& row'.mask = row'.pattern → row = row') ∧
  (∀ (op : Word) (i : Instr), decode op = .ok i →
    ∀ row ∈ OpcodeTable.rows, op &&& row.mask = row.pattern → row.mnemonic = i.mnemonic)

/-- The unknown opcodes are exactly the six sets of 30_encoding R98. -/
def Obligations.UnknownOpcodesAreTheSixSets : Prop :=
  ∀ op : Word, decode op = .error (.unknownOpcode op) ↔
    (op.toNat / 4096 = 0x0 ∧ op.toNat ≠ 0x00E0 ∧ op.toNat ≠ 0x00EE) ∨
    (op.toNat / 4096 = 0x5 ∧ op.toNat % 16 ≠ 0) ∨
    (op.toNat / 4096 = 0x8 ∧ op.toNat % 16 ∈ [0x8, 0x9, 0xA, 0xB, 0xC, 0xD, 0xF]) ∨
    (op.toNat / 4096 = 0x9 ∧ op.toNat % 16 ≠ 0) ∨
    (op.toNat / 4096 = 0xE ∧ op.toNat % 256 ∉ [0x9E, 0xA1]) ∨
    (op.toNat / 4096 = 0xF ∧ op.toNat % 256 ∉ [0x07, 0x0A, 0x15, 0x18, 0x1E, 0x29, 0x33, 0x55, 0x65])

/-! ## The step -/

/-- When the two bytes at `pc` decode to an instruction and the core is Running, a step is that instruction executed;
a step adds nothing around it (40_step R120, R126). -/
def Obligations.StepRunsDecodedInstruction : Prop :=
  ∀ (s : State) (i : Instr), s.fault = none → s.awaitingKey = false → s.pc.toNat ≤ 0xFFE →
    decode (BitVec.ofNat 16 (256 * (s.byteAt s.pc.toNat).toNat + (s.byteAt (s.pc.toNat + 1)).toNat)) = .ok i →
    step s = exec i s

/-- A step of a Faulted core changes nothing and reports the latched fault again (40_step R121; the rule rests on the
spec's decision D5). -/
def Obligations.FaultedStepChangesNothing : Prop :=
  ∀ (s : State) (r : FaultRecord), s.fault = some r → operate .step s = (s, .fault r)

/-- A step of a waiting core changes nothing and reports no fault; only a key press or a reset ends the wait
(40_step R122, 70_reset R281). -/
def Obligations.WaitingStepChangesNothing : Prop :=
  (∀ s : State, s.fault = none → s.awaitingKey = true → step s = .next s ∧ operate .step s = (s, .ok)) ∧
  (∀ (s : State) (op : Operation), s.awaitingKey = true → (operate op s).1.awaitingKey = false →
    op = .reset ∨ ∃ k, op = .setKey k true)

/-- The fetch reads two bytes, high byte first, at any `pc` up to 0xFFE, and changes nothing; above, the step latches
AddressOutOfRange with `fop` 0 and changes nothing else (40_step R123; the rule rests on the spec's decision D7). -/
def Obligations.FetchReadsTwoBytesOrFaults : Prop :=
  (∀ s : State, s.pc.toNat ≤ 0xFFE → ∃ op, s.fetch = some op ∧
    op.toNat = 256 * (s.byteAt s.pc.toNat).toNat + (s.byteAt (s.pc.toNat + 1)).toNat) ∧
  (∀ s : State, s.fault = none → s.awaitingKey = false → 0xFFE < s.pc.toNat → s.fetch = none ∧
    latches s (step s) .addressOutOfRange 0x0000)

/-- An unknown opcode latches UnknownOpcode with its `pc` and itself, changes nothing else, and the step reports it
(60_exceptions R241; the rule rests on the spec's decision D5). -/
def Obligations.UnknownOpcodeIsLatched : Prop :=
  ∀ (s : State) (op : Word), s.fault = none → s.awaitingKey = false → s.pc.toNat ≤ 0xFFE →
    s.byteAt s.pc.toNat = op.extractLsb' 8 8 → s.byteAt (s.pc.toNat + 1) = op.extractLsb' 0 8 →
    decode op = .error (.unknownOpcode op) →
    latches s (step s) .unknownOpcode op

/-- Faults are precise: a step that latches a fault changes the latch and nothing else, the latch names `pc` and the
opcode fetched (0 when the fetch faulted), and the step reports it (60_exceptions R246, R247; the rule rests on the
spec's decisions D5, D6). -/
def Obligations.FaultsArePrecise : Prop :=
  ∀ (s t : State) (r : FaultRecord), s.fault = none → step s = .next t → t.fault = some r →
    t = { s with fault := some r } ∧ r.fpc = s.pc ∧
    r.fop.toNat = (if s.pc.toNat ≤ 0xFFE then
      256 * (s.byteAt s.pc.toNat).toNat + (s.byteAt (s.pc.toNat + 1)).toNat else 0) ∧
    operate .step s = (t, .fault r)

/-- Every instruction answers a next state from every state, and latches a fault exactly when its one fault condition
holds, with its own opcode (60_exceptions R240, R249). That an instruction which raises its fault answers a NEXT state
is the model's choice of form, log entry 4 (40_step R124 says a next state or a fault); that the opcode it latches is
`encode i` is log entry 7. -/
def Obligations.InstructionsFaultExactlyWhenTheirConditionHolds : Prop :=
  ∀ (i : Instr) (s : State), ∃ t, exec i s = .next t ∧
    t.fault = (match i.faults s with
      | some c => some ⟨c, s.pc, encode i⟩
      | none => s.fault)

/-- A step answers a next state unless a fault is latched, and then it answers that fault: no state and no
instruction is refused (40_step R124). Both answers are the model's choice of form: that a step which RAISES a fault
answers a next state is log entry 4 (40_step R120 and R124 say a next state or a fault), and that a step of a Faulted
core answers `fault` is log entry 5. -/
def Obligations.StepAnswersUnlessFaulted : Prop :=
  (∀ s : State, s.fault = none → ∃ t, step s = .next t) ∧
  (∀ (s : State) (f : Fault), step s = .fault f ↔ ∃ r, s.fault = some r ∧ f = .halted r)

/-- How each instruction leaves `pc`: the table of 40_step R128. The rule rests on the spec's decisions D6, D10. -/
def Obligations.PcAfterEachInstruction : Prop :=
  ∀ (i : Instr) (s t : State), exec i s = .next t →
    (i.faults s ≠ none → t.pc = s.pc) ∧
    (i.faults s = none → t.pc =
      match i with
      | .jp nnn | .call nnn => nnn.setWidth 16
      | .jpV0 nnn => nnn.setWidth 16 + (s.readV 0).setWidth 16
      | .ret => s.stackEntry (s.sp.val - 1) + 2
      | .seByte x nn => if s.readV x = nn then s.pc + 4 else s.pc + 2
      | .sneByte x nn => if s.readV x = nn then s.pc + 2 else s.pc + 4
      | .seReg x y => if s.readV x = s.readV y then s.pc + 4 else s.pc + 2
      | .sneReg x y => if s.readV x = s.readV y then s.pc + 2 else s.pc + 4
      | .skp x => if s.keyDown (s.readV x).toNat = true then s.pc + 4 else s.pc + 2
      | .sknp x => if s.keyDown (s.readV x).toNat = true then s.pc + 2 else s.pc + 4
      | _ => s.pc + 2)

/-! ## Control transfer -/

/-- `00EE` RET: the newest entry plus 2 to `pc`, the count lower by one, nothing else; StackUnderflow on an empty
stack (41_flow R142; the rule rests on the spec's decision D24). -/
def Obligations.ReturnPopsTheNewestEntry : Prop :=
  decode 0x00EE = .ok .ret ∧
  (∀ s : State, s.sp.val ≠ 0 → ∃ t, exec .ret s = .next t ∧ t.sp.val = s.sp.val - 1 ∧
    t.pc.toNat = ((s.stackEntry (s.sp.val - 1)).toNat + 2) % 65536 ∧ sameBut [.sp, .pc] s t) ∧
  (∀ s : State, s.sp.val = 0 → latches s (exec .ret s) .stackUnderflow 0x00EE)

/-- `2nnn` CALL: the address of the CALL itself on the stack, `nnn` to `pc`, nothing else; StackOverflow when 16
entries are in use (41_flow R144). -/
def Obligations.CallPushesItsOwnAddress : Prop :=
  ∀ nnn : Addr, decode (0x2#4 ++ nnn) = .ok (.call nnn) ∧
  (∀ s : State, s.sp.val < 16 → ∃ t, exec (.call nnn) s = .next t ∧ t.sp.val = s.sp.val + 1 ∧
    t.stackEntry s.sp.val = s.pc ∧ (∀ k, k ≠ s.sp.val → t.stackEntry k = s.stackEntry k) ∧
    t.pc.toNat = nnn.toNat ∧ sameBut [.stack, .sp, .pc] s t) ∧
  (∀ s : State, s.sp.val = 16 →
    latches s (exec (.call nnn) s) .stackOverflow (0x2#4 ++ nnn))

/-- A RET after a CALL, whatever ran between them so long as the stack is as the CALL left it, returns to the
instruction after the CALL and gives the stack count back (41_flow R142, R144). -/
def Obligations.ReturnUndoesCall : Prop :=
  ∀ (s t u : State) (nnn : Addr), s.sp.val < 16 → exec (.call nnn) s = .next t →
    u.stack = t.stack → u.sp = t.sp →
    ∃ w, exec .ret u = .next w ∧ w.pc = s.pc + 2 ∧ w.sp = s.sp ∧
      ∀ k, k ≠ s.sp.val → w.stackEntry k = s.stackEntry k

/-- `1nnn` JP and `Bnnn` JP V0: only `pc` changes, to `nnn` and to `nnn + V[0]`, not reduced to 12 bits
(41_flow R143, R149). -/
def Obligations.JumpsWriteOnlyPc : Prop :=
  ∀ (nnn : Addr) (s : State),
    decode (0x1#4 ++ nnn) = .ok (.jp nnn) ∧ decode (0xB#4 ++ nnn) = .ok (.jpV0 nnn) ∧
    (∃ t, exec (.jp nnn) s = .next t ∧ t.pc.toNat = nnn.toNat ∧ sameBut [.pc] s t) ∧
    (∃ t, exec (.jpV0 nnn) s = .next t ∧ t.pc.toNat = nnn.toNat + (s.readV 0).toNat ∧ sameBut [.pc] s t)

/-- `3xnn` SE and `4xnn` SNE with a byte: skip by the comparison, only `pc` changes (41_flow R145, R146). -/
def Obligations.SkipsOnByteWriteOnlyPc : Prop :=
  ∀ (x : Nibble) (nn : Byte) (s : State),
    decode (0x3#4 ++ x ++ nn) = .ok (.seByte x nn) ∧ decode (0x4#4 ++ x ++ nn) = .ok (.sneByte x nn) ∧
    (∃ t, exec (.seByte x nn) s = .next t ∧ sameBut [.pc] s t ∧
      t.pc.toNat = (s.pc.toNat + if (s.readV x).toNat = nn.toNat then 4 else 2) % 65536) ∧
    (∃ t, exec (.sneByte x nn) s = .next t ∧ sameBut [.pc] s t ∧
      t.pc.toNat = (s.pc.toNat + if (s.readV x).toNat = nn.toNat then 2 else 4) % 65536)

/-- `5xy0` SE and `9xy0` SNE with registers: skip by the comparison, only `pc` changes; a low nibble other than 0
does not decode (41_flow R147, R148). -/
def Obligations.SkipsOnRegistersWriteOnlyPc : Prop :=
  ∀ (x y : Nibble) (s : State),
    (∀ n : Nibble, decode (0x5#4 ++ x ++ y ++ n) =
      if n = 0 then .ok (.seReg x y) else .error (.unknownOpcode (0x5#4 ++ x ++ y ++ n))) ∧
    (∀ n : Nibble, decode (0x9#4 ++ x ++ y ++ n) =
      if n = 0 then .ok (.sneReg x y) else .error (.unknownOpcode (0x9#4 ++ x ++ y ++ n))) ∧
    (∃ t, exec (.seReg x y) s = .next t ∧ sameBut [.pc] s t ∧
      t.pc.toNat = (s.pc.toNat + if (s.readV x).toNat = (s.readV y).toNat then 4 else 2) % 65536) ∧
    (∃ t, exec (.sneReg x y) s = .next t ∧ sameBut [.pc] s t ∧
      t.pc.toNat = (s.pc.toNat + if (s.readV x).toNat = (s.readV y).toNat then 2 else 4) % 65536)

/-! ## Register instructions -/

/-- `6xnn` LD and `7xnn` ADD with a byte: `V[x]` takes the byte or the sum modulo 256, no flag is written (42_alu
R161, R162; the rule rests on the spec's decision D12). -/
def Obligations.ImmediatesWriteOnlyTheirRegister : Prop :=
  ∀ (x : Nibble) (nn : Byte) (s : State),
    decode (0x6#4 ++ x ++ nn) = .ok (.ldByte x nn) ∧ decode (0x7#4 ++ x ++ nn) = .ok (.addByte x nn) ∧
    (∃ t, exec (.ldByte x nn) s = .next t ∧ t.readV x = nn ∧ sameRegistersBut [x] s t ∧
      t.pc = s.pc + 2 ∧ sameBut [.V, .pc] s t) ∧
    (∃ t, exec (.addByte x nn) s = .next t ∧ (t.readV x).toNat = ((s.readV x).toNat + nn.toNat) % 256 ∧
      sameRegistersBut [x] s t ∧ t.pc = s.pc + 2 ∧ sameBut [.V, .pc] s t)

/-- `8xy0` to `8xy3`, assign, OR, AND, XOR: `V[x]` takes the result, bit by bit, and `VF` is not written unless it is
`V[x]` (42_alu R163 to R166; the rule rests on the spec's decision D12). -/
def Obligations.LogicWritesOnlyItsRegister : Prop :=
  ∀ (x y : Nibble) (s : State),
    (decode (0x8#4 ++ x ++ y ++ 0x0#4) = .ok (.ldReg x y) ∧ decode (0x8#4 ++ x ++ y ++ 0x1#4) = .ok (.orReg x y) ∧
      decode (0x8#4 ++ x ++ y ++ 0x2#4) = .ok (.andReg x y) ∧ decode (0x8#4 ++ x ++ y ++ 0x3#4) = .ok (.xorReg x y)) ∧
    (∃ t, exec (.ldReg x y) s = .next t ∧ t.readV x = s.readV y ∧
      sameRegistersBut [x] s t ∧ t.pc = s.pc + 2 ∧ sameBut [.V, .pc] s t) ∧
    (∃ t, exec (.orReg x y) s = .next t ∧
      (∀ b, (t.readV x).getLsbD b = ((s.readV x).getLsbD b || (s.readV y).getLsbD b)) ∧
      sameRegistersBut [x] s t ∧ t.pc = s.pc + 2 ∧ sameBut [.V, .pc] s t) ∧
    (∃ t, exec (.andReg x y) s = .next t ∧
      (∀ b, (t.readV x).getLsbD b = ((s.readV x).getLsbD b && (s.readV y).getLsbD b)) ∧
      sameRegistersBut [x] s t ∧ t.pc = s.pc + 2 ∧ sameBut [.V, .pc] s t) ∧
    (∃ t, exec (.xorReg x y) s = .next t ∧
      (∀ b, (t.readV x).getLsbD b = ((s.readV x).getLsbD b != (s.readV y).getLsbD b)) ∧
      sameRegistersBut [x] s t ∧ t.pc = s.pc + 2 ∧ sameBut [.V, .pc] s t)

/-- `8xy4` ADD: the sum modulo 256 to `V[x]`, then the carry to `VF`, also when `x` or `y` is `VF` (42_alu R167; the
rule rests on the spec's decision D11). -/
def Obligations.AddWritesSumThenCarry : Prop :=
  ∀ (x y : Nibble) (s : State), decode (0x8#4 ++ x ++ y ++ 0x4#4) = .ok (.addReg x y) ∧
    ∃ t, exec (.addReg x y) s = .next t ∧
      (x ≠ 0xF → (t.readV x).toNat = ((s.readV x).toNat + (s.readV y).toNat) % 256) ∧
      (t.readV 0xF).toNat = (if 255 < (s.readV x).toNat + (s.readV y).toNat then 1 else 0) ∧
      sameRegistersBut [x, 0xF] s t ∧ t.pc = s.pc + 2 ∧ sameBut [.V, .pc] s t

/-- `8xy5` SUB and `8xy7` SUBN: the difference modulo 256 to `V[x]`, then no-borrow to `VF`, equality included (42_alu
R168, R170; the rule rests on the spec's decisions D11, D13). -/
def Obligations.SubtractionsWriteDifferenceThenNoBorrow : Prop :=
  ∀ (x y : Nibble) (s : State),
    decode (0x8#4 ++ x ++ y ++ 0x5#4) = .ok (.subReg x y) ∧ decode (0x8#4 ++ x ++ y ++ 0x7#4) = .ok (.subnReg x y) ∧
    (∃ t, exec (.subReg x y) s = .next t ∧
      (x ≠ 0xF → (t.readV x).toNat = ((s.readV x).toNat + 256 - (s.readV y).toNat) % 256) ∧
      (t.readV 0xF).toNat = (if (s.readV y).toNat ≤ (s.readV x).toNat then 1 else 0) ∧
      sameRegistersBut [x, 0xF] s t ∧ t.pc = s.pc + 2 ∧ sameBut [.V, .pc] s t) ∧
    (∃ t, exec (.subnReg x y) s = .next t ∧
      (x ≠ 0xF → (t.readV x).toNat = ((s.readV y).toNat + 256 - (s.readV x).toNat) % 256) ∧
      (t.readV 0xF).toNat = (if (s.readV x).toNat ≤ (s.readV y).toNat then 1 else 0) ∧
      sameRegistersBut [x, 0xF] s t ∧ t.pc = s.pc + 2 ∧ sameBut [.V, .pc] s t)

/-- `8xy6` SHR and `8xyE` SHL: `V[x]` shifted by one in place, then the bit that left it to `VF`, whatever `y` is
(42_alu R169, R171; the rule rests on the spec's decisions D11, D14). -/
def Obligations.ShiftsWriteResultThenBitShiftedOut : Prop :=
  ∀ (x y : Nibble) (s : State),
    decode (0x8#4 ++ x ++ y ++ 0x6#4) = .ok (.shr x y) ∧ decode (0x8#4 ++ x ++ y ++ 0xE#4) = .ok (.shl x y) ∧
    (∃ t, exec (.shr x y) s = .next t ∧ (x ≠ 0xF → (t.readV x).toNat = (s.readV x).toNat / 2) ∧
      (t.readV 0xF).toNat = (s.readV x).toNat % 2 ∧
      sameRegistersBut [x, 0xF] s t ∧ t.pc = s.pc + 2 ∧ sameBut [.V, .pc] s t) ∧
    (∃ t, exec (.shl x y) s = .next t ∧ (x ≠ 0xF → (t.readV x).toNat = 2 * (s.readV x).toNat % 256) ∧
      (t.readV 0xF).toNat = (s.readV x).toNat / 128 ∧
      sameRegistersBut [x, 0xF] s t ∧ t.pc = s.pc + 2 ∧ sameBut [.V, .pc] s t)

/-- `Cxnn` RND: `V[x]` takes the drawn byte under the mask, so no bit outside `nn`; the old `V[x]` does not enter and
the draw is counted. The drawn byte is the free value of log entry 3: this holds for every byte it may be
(42_alu R172). -/
def Obligations.RandomByteIsMasked : Prop :=
  ∀ (x : Nibble) (nn : Byte) (s : State), decode (0xC#4 ++ x ++ nn) = .ok (.rnd x nn) ∧
    ∃ t, exec (.rnd x nn) s = .next t ∧
      (∀ b, (t.readV x).getLsbD b = ((Config.randomByte s.rndDraws).getLsbD b && nn.getLsbD b)) ∧
      t.readV x &&& ~~~nn = 0 ∧ t.rndDraws = s.rndDraws + 1 ∧
      sameRegistersBut [x] s t ∧ t.pc = s.pc + 2 ∧ sameBut [.V, .pc, .rndDraws] s t

/-- The seven flag instructions leave `VF` at 0 or 1; every other instruction leaves `VF` alone unless `VF` is a
register it has as its destination (10_state R22). -/
def Obligations.FlagInstructionsLeaveZeroOrOne : Prop :=
  ∀ (i : Instr) (s t : State), i.faults s = none → exec i s = .next t →
    (i.writesFlag = true → t.readV 0xF = 0 ∨ t.readV 0xF = 1) ∧
    (i.writesFlag = false →
      (match i with
        | .ldByte x _ | .addByte x _ | .ldReg x _ | .orReg x _ | .andReg x _ | .xorReg x _ | .rnd x _ | .ldVxDT x
        | .ldVxMem x => x ≠ 0xF
        | _ => True) →
      t.readV 0xF = s.readV 0xF)

/-! ## Index and memory -/

/-- `Annn` LD I and `Fx29` LD F: `I` takes `nnn` or five times the whole byte `V[x]`, only `I` and `pc` change
(43_index_memory R190, R192; the rule rests on the spec's decision D25). -/
def Obligations.IndexLoadsWriteOnlyIndex : Prop :=
  (∀ (nnn : Addr) (s : State), decode (0xA#4 ++ nnn) = .ok (.ldI nnn) ∧
    ∃ t, exec (.ldI nnn) s = .next t ∧ t.I.toNat = nnn.toNat ∧ t.pc = s.pc + 2 ∧ sameBut [.I, .pc] s t) ∧
  (∀ (x : Nibble) (s : State), decode (0xF#4 ++ x ++ 0x29#8) = .ok (.ldF x) ∧
    ∃ t, exec (.ldF x) s = .next t ∧ t.I.toNat = 5 * (s.readV x).toNat ∧ t.pc = s.pc + 2 ∧ sameBut [.I, .pc] s t)

/-- While memory still holds `FONT`, `Fx29` with a digit in `V[x]` leaves `I` at the five bytes of that digit's glyph.
It holds for every `FONT` the machine may be built with (43_index_memory R192, 10_state R33). -/
def Obligations.FontInstructionFindsTheGlyph : Prop :=
  ∀ (x : Nibble) (s : State), (s.readV x).toNat ≤ 15 → (∀ a, a ≤ 0x4F → s.byteAt a = fontByte s.font a) →
    ∃ t, exec (.ldF x) s = .next t ∧ ∀ k, k < 5 →
      t.byteAt (t.I.toNat + k) = fontByte s.font (5 * (s.readV x).toNat + k)

/-- `Fx1E` ADD I: the 16-bit sum to `I`, the carry out of bit 15 to `VF`, and not a test against 0xFFF
(43_index_memory R191; the rule rests on the spec's decisions D11, D15). -/
def Obligations.AddToIndexWritesSumThenCarry : Prop :=
  ∀ (x : Nibble) (s : State), decode (0xF#4 ++ x ++ 0x1E#8) = .ok (.addI x) ∧
    ∃ t, exec (.addI x) s = .next t ∧ t.I.toNat = (s.I.toNat + (s.readV x).toNat) % 65536 ∧
      (t.readV 0xF).toNat = (if 0xFFFF < s.I.toNat + (s.readV x).toNat then 1 else 0) ∧
      sameRegistersBut [0xF] s t ∧ t.pc = s.pc + 2 ∧ sameBut [.I, .V, .pc] s t

/-- `Fx33` LD B: the hundreds, tens and ones of `V[x]` to the three bytes at `I`, no other byte, `I` unchanged;
AddressOutOfRange when `I > 0xFFD`, and then no byte is written (43_index_memory R193; the rule rests on the spec's
decisions D6, D7). -/
def Obligations.BcdStoresThreeDigits : Prop :=
  ∀ x : Nibble, decode (0xF#4 ++ x ++ 0x33#8) = .ok (.ldB x) ∧
  (∀ s : State, s.I.toNat ≤ 0xFFD → ∃ t, exec (.ldB x) s = .next t ∧
    (t.byteAt s.I.toNat).toNat = (s.readV x).toNat / 100 ∧
    (t.byteAt (s.I.toNat + 1)).toNat = (s.readV x).toNat / 10 % 10 ∧
    (t.byteAt (s.I.toNat + 2)).toNat = (s.readV x).toNat % 10 ∧
    sameMemoryOutside s.I.toNat 3 s t ∧ t.pc = s.pc + 2 ∧ sameBut [.mem, .pc] s t) ∧
  (∀ s : State, 0xFFD < s.I.toNat →
    latches s (exec (.ldB x) s) .addressOutOfRange (0xF#4 ++ x ++ 0x33#8))

/-- `Fx55` LD [I]: `V[0]` to `V[x]` to the bytes from `I` up, no other byte, `I` rises by `x + 1`; AddressOutOfRange
when `I + x > 0xFFF`, and then nothing is written (43_index_memory R194; the rule rests on the spec's decisions D6,
D7). -/
def Obligations.DumpStoresRegisterBlock : Prop :=
  ∀ x : Nibble, decode (0xF#4 ++ x ++ 0x55#8) = .ok (.ldMemVx x) ∧
  (∀ s : State, s.I.toNat + x.toNat ≤ 0xFFF → ∃ t, exec (.ldMemVx x) s = .next t ∧
    (∀ k : Nibble, k.toNat ≤ x.toNat → t.byteAt (s.I.toNat + k.toNat) = s.readV k) ∧
    sameMemoryOutside s.I.toNat (x.toNat + 1) s t ∧ t.I.toNat = s.I.toNat + x.toNat + 1 ∧
    t.pc = s.pc + 2 ∧ sameBut [.mem, .I, .pc] s t) ∧
  (∀ s : State, 0xFFF < s.I.toNat + x.toNat →
    latches s (exec (.ldMemVx x) s) .addressOutOfRange (0xF#4 ++ x ++ 0x55#8))

/-- `Fx65` LD Vx, [I]: the bytes from `I` up to `V[0]` to `V[x]`, no other register, `I` rises by `x + 1`, every byte
of memory unchanged; AddressOutOfRange when `I + x > 0xFFF`, and then nothing is written (43_index_memory R195; the
rule rests on the spec's decisions D6, D7). -/
def Obligations.LoadFillsRegisterBlock : Prop :=
  ∀ x : Nibble, decode (0xF#4 ++ x ++ 0x65#8) = .ok (.ldVxMem x) ∧
  (∀ s : State, s.I.toNat + x.toNat ≤ 0xFFF → ∃ t, exec (.ldVxMem x) s = .next t ∧
    (∀ k : Nibble, t.readV k = if k.toNat ≤ x.toNat then s.byteAt (s.I.toNat + k.toNat) else s.readV k) ∧
    t.I.toNat = s.I.toNat + x.toNat + 1 ∧ t.pc = s.pc + 2 ∧ sameBut [.V, .I, .pc] s t) ∧
  (∀ s : State, 0xFFF < s.I.toNat + x.toNat →
    latches s (exec (.ldVxMem x) s) .addressOutOfRange (0xF#4 ++ x ++ 0x65#8))

/-- A dump and a later load through the same region, `I` set back in between and the memory as the dump left it,
restore `V[0]` to `V[x]`, and `I` ends where the dump left it (43_index_memory R195, the source's property S8). -/
def Obligations.DumpThenLoadRestoresRegisters : Prop :=
  ∀ (x : Nibble) (s t u : State), s.I.toNat + x.toNat ≤ 0xFFF → exec (.ldMemVx x) s = .next t →
    (∀ a, u.byteAt a = t.byteAt a) → u.I = s.I →
    ∃ w, exec (.ldVxMem x) u = .next w ∧ w.I = t.I ∧
      ∀ k : Nibble, w.readV k = if k.toNat ≤ x.toNat then s.readV k else u.readV k

/-- A store is seen by the next fetch: a dump of two or more registers over the bytes just after itself makes the
next step fetch `V[0]` and `V[1]` as its opcode (20_memory R74). -/
def Obligations.StoreIsSeenByNextFetch : Prop :=
  ∀ (x : Nibble) (s t : State), 1 ≤ x.toNat → s.I.toNat + x.toNat ≤ 0xFFF → s.pc.toNat ≤ 0xFFC →
    s.I = s.pc + 2 → exec (.ldMemVx x) s = .next t →
    ∃ op, t.fetch = some op ∧ op.toNat = 256 * (s.readV 0).toNat + (s.readV 1).toNat

/-! ## Display -/

/-- `00E0` CLS: every pixel 0, redraw requested, `VF` and every register unchanged (44_display R211; the rule rests on
the spec's decision D10). -/
def Obligations.ClearScreenClearsEveryPixel : Prop :=
  decode 0x00E0 = .ok .cls ∧
  ∀ s : State, ∃ t, exec .cls s = .next t ∧ (∀ r c, t.pixel r c = false) ∧ t.redraw = true ∧
    t.pc = s.pc + 2 ∧ sameBut [.fb, .redraw, .pc] s t

/-- `Dxyn` DRW: each pixel is its old value XOR the clipped sprite's bit, `VF` is the collision, redraw is requested;
AddressOutOfRange when the `n` bytes at `I` do not all exist, and then nothing is drawn (44_display R212; the rule
rests on the spec's decisions D7, D11, D16, D17). -/
def Obligations.DrawXorsTheClippedSprite : Prop :=
  ∀ x y n : Nibble, decode (0xD#4 ++ x ++ y ++ n) = .ok (.drw x y n) ∧
  (∀ s : State, n = 0 ∨ s.I.toNat + n.toNat - 1 ≤ 0xFFF →
    ∃ t, exec (.drw x y n) s = .next t ∧
      (let x0 := (s.readV x).toNat % 64
       let y0 := (s.readV y).toNat % 32
       let bit := fun r c : Nat => decide (r ≤ 31 ∧ c ≤ 63 ∧ y0 ≤ r ∧ r < y0 + n.toNat ∧ x0 ≤ c ∧ c ≤ x0 + 7) &&
         (s.byteAt (s.I.toNat + (r - y0))).getLsbD (7 - (c - x0))
       (∀ r c, t.pixel r c = (s.pixel r c != bit r c)) ∧
       ((∃ r c, s.pixel r c = true ∧ bit r c = true) → t.readV 0xF = 1) ∧
       ((¬ ∃ r c, s.pixel r c = true ∧ bit r c = true) → t.readV 0xF = 0)) ∧
      t.redraw = true ∧ t.pc = s.pc + 2 ∧ sameRegistersBut [0xF] s t ∧ sameBut [.fb, .V, .redraw, .pc] s t) ∧
  (∀ s : State, n ≠ 0 → 0xFFF < s.I.toNat + n.toNat - 1 →
    latches s (exec (.drw x y n) s) .addressOutOfRange (0xD#4 ++ x ++ y ++ n))

/-- DRW is its own inverse on the framebuffer: the same sprite drawn again at the same place restores every pixel
(44_display R213 a, the source's property S4). -/
def Obligations.DrawingTwiceRestoresTheScreen : Prop :=
  ∀ (x y n : Nibble) (s t u : State), n = 0 ∨ s.I.toNat + n.toNat - 1 ≤ 0xFFF →
    exec (.drw x y n) s = .next t → u.fb = t.fb → (∀ a, u.byteAt a = s.byteAt a) → u.I = s.I →
    u.readV x = s.readV x → u.readV y = s.readV y →
    ∃ w, exec (.drw x y n) u = .next w ∧ w.fb = s.fb

/-- Drawing never wraps: a pixel outside the rows `y0` to `min(y0 + n − 1, 31)` and the columns `x0` to
`min(x0 + 7, 63)` keeps its value (44_display R213 c, d). -/
def Obligations.DrawingStaysInItsRectangle : Prop :=
  ∀ (x y n : Nibble) (s t : State) (r c : Nat), exec (.drw x y n) s = .next t →
    (r < (s.readV y).toNat % 32 ∨ min ((s.readV y).toNat % 32 + n.toNat) 32 ≤ r ∨
      c < (s.readV x).toNat % 64 ∨ min ((s.readV x).toNat % 64 + 8) 64 ≤ c) →
    t.pixel r c = s.pixel r c

/-! ## Keys and timers -/

/-- `Ex9E` SKP and `ExA1` SKNP: skip by the key whose index is the value of `V[x]`, only `pc` changes;
KeyIndexOutOfRange when the value is above 15 (45_keys_timers R220, R221; the rule rests on the spec's decision D8). -/
def Obligations.KeySkipsTestTheLatch : Prop :=
  ∀ x : Nibble,
    decode (0xE#4 ++ x ++ 0x9E#8) = .ok (.skp x) ∧ decode (0xE#4 ++ x ++ 0xA1#8) = .ok (.sknp x) ∧
  (∀ s : State, (s.readV x).toNat ≤ 15 →
    (∃ t, exec (.skp x) s = .next t ∧ sameBut [.pc] s t ∧
      t.pc.toNat = (s.pc.toNat + if s.keyDown (s.readV x).toNat = true then 4 else 2) % 65536) ∧
    (∃ t, exec (.sknp x) s = .next t ∧ sameBut [.pc] s t ∧
      t.pc.toNat = (s.pc.toNat + if s.keyDown (s.readV x).toNat = false then 4 else 2) % 65536)) ∧
  (∀ s : State, 15 < (s.readV x).toNat →
    latches s (exec (.skp x) s) .keyIndexOutOfRange (0xE#4 ++ x ++ 0x9E#8) ∧
    latches s (exec (.sknp x) s) .keyIndexOutOfRange (0xE#4 ++ x ++ 0xA1#8))

/-- `Fx07`, `Fx15`, `Fx18`: the delay timer to `V[x]`, `V[x]` to the delay or the sound timer, nothing else; the sound
output follows at once (45_keys_timers R222, R224, R225). -/
def Obligations.TimerMovesWriteOnlyTheirDestination : Prop :=
  ∀ (x : Nibble) (s : State),
    (decode (0xF#4 ++ x ++ 0x07#8) = .ok (.ldVxDT x) ∧ decode (0xF#4 ++ x ++ 0x15#8) = .ok (.ldDTVx x) ∧
      decode (0xF#4 ++ x ++ 0x18#8) = .ok (.ldSTVx x)) ∧
    (∃ t, exec (.ldVxDT x) s = .next t ∧ t.readV x = s.DT ∧ sameRegistersBut [x] s t ∧ t.pc = s.pc + 2 ∧
      sameBut [.V, .pc] s t) ∧
    (∃ t, exec (.ldDTVx x) s = .next t ∧ t.DT = s.readV x ∧ t.pc = s.pc + 2 ∧ sameBut [.DT, .pc] s t) ∧
    (∃ t, exec (.ldSTVx x) s = .next t ∧ t.ST = s.readV x ∧ t.pc = s.pc + 2 ∧ sameBut [.ST, .pc] s t ∧
      (t.soundActive = true ↔ s.readV x ≠ 0))

/-- `Fx0A` LD Vx, K: the core begins to wait at once, `pc` already advanced and no register written; while it waits a
step and a tick change nothing; the press of any key, held before or not, writes its index to `V[x]` and ends the
wait; a release does not end it (45_keys_timers R223). -/
def Obligations.KeyWaitBeginsAndEnds : Prop :=
  ∀ (x : Nibble) (s : State), decode (0xF#4 ++ x ++ 0x0A#8) = .ok (.ldVxK x) ∧
    ∃ t, exec (.ldVxK x) s = .next t ∧ t.awaitingKey = true ∧ t.keyTarget = x ∧ t.pc = s.pc + 2 ∧
      sameBut [.awaitingKey, .keyTarget, .pc] s t ∧
      (s.fault = none → step t = .next t) ∧ tickTimers t = t ∧
      (∀ k : Nibble, (setKey k false t).awaitingKey = true ∧ ∀ r, (setKey k false t).readV r = s.readV r) ∧
      (∀ k : Nibble, (setKey k true t).awaitingKey = false ∧ (setKey k true t).pc = s.pc + 2 ∧
        ((setKey k true t).readV x).toNat = k.toNat ∧ sameRegistersBut [x] s (setKey k true t))

/-! ## The host's operations -/

/-- `set_key`: the latch takes the level; a press while the core waits writes the index to `V[keyTarget]` and ends the
wait; nothing else changes, whatever `fault` is (60_exceptions R258; the rule rests on the spec's decisions D21, D23). -/
def Obligations.SetKeyWritesTheLatch : Prop :=
  ∀ (k : Nibble) (pressed : Bool) (s : State),
    (operate (.setKey k pressed) s).2 = .ok ∧
    (∀ j, (operate (.setKey k pressed) s).1.keyDown j = if j = k.toNat then pressed else s.keyDown j) ∧
    (pressed = true ∧ s.awaitingKey = true →
      (operate (.setKey k pressed) s).1.awaitingKey = false ∧
      ((operate (.setKey k pressed) s).1.readV s.keyTarget).toNat = k.toNat ∧
      sameRegistersBut [s.keyTarget] s (operate (.setKey k pressed) s).1 ∧
      sameBut [.key, .V, .awaitingKey] s (operate (.setKey k pressed) s).1) ∧
    (¬ (pressed = true ∧ s.awaitingKey = true) → sameBut [.key] s (operate (.setKey k pressed) s).1)

/-- `tick_timers`: each timer lower by one, not below 0, unless the core waits for a key; nothing else changes,
whatever `fault` is (60_exceptions R257; the rule rests on the spec's decision D21). -/
def Obligations.TickTimersCountsDown : Prop :=
  ∀ s : State, (operate .tickTimers s).2 = .ok ∧
    (s.awaitingKey = true → (operate .tickTimers s).1 = s) ∧
    (s.awaitingKey = false →
      (operate .tickTimers s).1.DT.toNat = s.DT.toNat - 1 ∧ (operate .tickTimers s).1.ST.toNat = s.ST.toNat - 1 ∧
      sameBut [.DT, .ST] s (operate .tickTimers s).1)

/-- `load`: an image of at most 3584 bytes stands at 0x200 and up, and no other byte and no register changes; a longer
one is refused and nothing changes (70_reset R282, R283). -/
def Obligations.LoadCopiesTheImage : Prop :=
  ∀ (image : List Byte) (s : State),
    (image.length ≤ 3584 → (operate (.load image) s).2 = .ok ∧
      (∀ k (h : k < image.length), (operate (.load image) s).1.byteAt (0x200 + k) = image[k]) ∧
      sameMemoryOutside 0x200 image.length s (operate (.load image) s).1 ∧
      sameBut [.mem] s (operate (.load image) s).1) ∧
    (3584 < image.length → operate (.load image) s = (s, .imageTooLarge))

/-- The reset state: every value of the table of 10_state R38, and the control state Running, for every `FONT` the
machine may be built with; `State.reset` is that of the default `FONT`. The rule rests on the spec's decisions D5,
D20. -/
def Obligations.ResetStateHasTheStatedValues : Prop :=
  (∀ font : Font, (State.resetWith font).HasResetValues font ∧ (State.resetWith font).control = .running) ∧
  State.reset.HasResetValues defaultFont ∧ State.reset.control = .running

/-- `reset` from any state, Faulted and AwaitingKey among them, gives every element of the spec's state its reset
value, the loaded program erased, and never fails (70_reset R280); the parameter `FONT` is what it was. `ack_redraw`
clears the redraw flag and nothing else (60_exceptions R259; the rules rest on the spec's decision D20). -/
def Obligations.ResetAndAckRedrawFromAnyState : Prop :=
  ∀ s : State,
    ((operate .reset s).2 = .ok ∧ (operate .reset s).1.HasResetValues s.font ∧ (operate .reset s).1.font = s.font) ∧
    ((operate .ackRedraw s).2 = .ok ∧ (operate .ackRedraw s).1.redraw = false ∧
      sameBut [.redraw] s (operate .ackRedraw s).1)

/-- The launch state: after reset and a load that answers, the image is at 0x200, the font below, zeros elsewhere, and
every register is at its reset value; with an image that puts the two bytes of an instruction first, the first step
runs that instruction. It holds for every `FONT` (70_reset R284, R285). -/
def Obligations.LaunchStateRunsTheImage : Prop :=
  (∀ (font : Font) (image : List Byte) (s : State), load image (State.resetWith font) = some s →
    (∀ a, s.byteAt a = if 0x200 ≤ a ∧ a < 0x200 + image.length then image.getD (a - 0x200) 0
      else if a ≤ 0x04F then fontByte font a else 0) ∧ sameBut [.mem] (State.resetWith font) s) ∧
  (∀ (font : Font) (i : Instr) (rest : List Byte) (s : State),
    load (encodeBytes i ++ rest) (State.resetWith font) = some s → step s = exec i s)

/-! ## Invariants and whole-machine rules -/

/-- The reset state meets the invariant, whatever `FONT` is. -/
def Obligations.ResetMeetsInvariant : Prop := State.reset.Inv ∧ ∀ font : Font, (State.resetWith font).Inv

/-- Every step keeps the invariant of 10_state R40 (and R23): canonical memory within 4096 bytes, no fault while
waiting, every stack entry in use the address of a fetched CALL, `pc` at most 0x10FE, the latch naming `pc`. -/
def Obligations.StepKeepsInvariant : Prop :=
  ∀ s t : State, s.Inv → step s = .next t → t.Inv

/-- Every sequence of host operations keeps the invariant, from every state that meets it, and none changes the
parameter `FONT` (10_state R36, R40). -/
def Obligations.OperationsKeepInvariant : Prop :=
  ∀ (ops : List Operation) (s : State), s.Inv → (operateAll ops s).Inv ∧ (operateAll ops s).font = s.font

/-- The transitions of the control state, and no other: `Fx0A` begins a wait, a press ends it, a faulting step
latches, `reset` gives Running (10_state R35). -/
def Obligations.ControlStatesChangeOnlyAsStated : Prop :=
  ∀ (s : State) (op : Operation), s.control ≠ (operate op s).1.control →
    (op = .reset ∧ (operate op s).1.control = .running) ∨
    (s.control = .running ∧ (operate op s).1.control = .awaitingKey ∧ op = .step ∧
      ∃ x : Nibble, s.fetch = some (0xF#4 ++ x ++ 0x0A#8)) ∨
    (s.control = .awaitingKey ∧ (operate op s).1.control = .running ∧ ∃ k, op = .setKey k true) ∨
    (s.control = .running ∧ (operate op s).1.control = .faulted ∧ op = .step ∧
      ∃ r, (operate op s).2 = .fault r)

/-- While the core waits, whatever the host does but a press, a load, an acknowledgement or a reset leaves every
element but the key latch as it is: no step runs and both timers are frozen (60_exceptions R266, 70_reset R293). -/
def Obligations.WaitFreezesTheCore : Prop :=
  ∀ (s : State) (op : Operation), s.fault = none → s.awaitingKey = true →
    (op = .step ∨ op = .tickTimers ∨ ∃ k, op = .setKey k false) → sameBut [.key] s (operate op s).1

/-- A fault is latched once: after a fault no operation but `reset` changes the latch, and of the rest of the state it
can change only the two timers (a tick), the key latch, the redraw flag (an acknowledgement) and memory (a load):
`pc`, every general register, `I`, the call stack and its count, the framebuffer, `awaitingKey` and `keyTarget` stay
(60_exceptions R250, R254, R257 to R259). -/
def Obligations.FaultIsLatchedUntilReset : Prop :=
  ∀ (s : State) (op : Operation) (r : FaultRecord), s.fault = some r → s.noFaultWhileWaiting → op ≠ .reset →
    (operate op s).1.fault = some r ∧ sameBut [.mem, .DT, .ST, .key, .redraw] s (operate op s).1 ∧
    ((∀ image, op ≠ .load image) → ∀ a, (operate op s).1.byteAt a = s.byteAt a)

/-- Who writes what: an instruction that completes leaves unchanged every element the table does not list for it,
every register it does not name, every byte of memory but those it stores at `I`, and every stack entry but the one a
CALL writes; one that faults leaves everything but the latch (10_state R37, 20_memory R68). -/
def Obligations.InstructionsWriteOnlyWhatTheTableLists : Prop :=
  ∀ (i : Instr) (s t : State), exec i s = .next t →
    (i.faults s ≠ none → sameBut [.fault] s t) ∧
    (i.faults s = none → sameBut i.writes s t ∧
      (∀ r, i.writesRegister r = false → t.readV r = s.readV r) ∧
      (∀ a, a < s.I.toNat ∨ s.I.toNat + i.storedBytes ≤ a → t.byteAt a = s.byteAt a) ∧
      (∀ k, k ≠ s.sp.val → t.stackEntry k = s.stackEntry k))

/-- The redraw flag and the sound timer are read by no step: whatever the two hold, the step does the same to every
other element, and it leaves each of the two as it was or writes to it a value (`written`, `sound`) that does not
depend on what either held (10_state R27, R31, R37). -/
def Obligations.RedrawAndSoundTimerAreNotRead : Prop :=
  ∀ s t : State, step s = .next t → ∃ (written : Option Bool) (sound : Option Byte), ∀ (b : Bool) (v : Byte),
    step { s with redraw := b, ST := v } = .next { t with redraw := written.getD b, ST := sound.getD v }

/-- A jump to itself is a fixed point of the step in every element of state (70_reset R286 a, 40_step R127). -/
def Obligations.SelfJumpIsAFixedPoint : Prop :=
  ∀ (s : State) (nnn : Addr), s.fault = none → s.awaitingKey = false → s.pc.toNat = nnn.toNat →
    nnn.toNat ≤ 0xFFE → s.byteAt nnn.toNat = (0x1#4 ++ nnn : Word).extractLsb' 8 8 →
    s.byteAt (nnn.toNat + 1) = (0x1#4 ++ nnn : Word).extractLsb' 0 8 → step s = .next s

/-- The sound output is `ST > 0`: it falls with the tick that takes `ST` from 1 to 0, and stays through a key wait
(60_exceptions R261). -/
def Obligations.SoundOutputFollowsTheTimer : Prop :=
  ∀ s : State, (s.outputs.soundActive = true ↔ s.ST ≠ 0) ∧
    (s.awaitingKey = false → ((tickTimers s).outputs.soundActive = true ↔ 1 < s.ST.toNat)) ∧
    (s.awaitingKey = true → (tickTimers s).outputs.soundActive = s.outputs.soundActive)
end

