-- ==== Sys2Proof/Laws/Decode.lean ====
section
/-! SUPPORT. The bits and the fields of an opcode put together from its formats, its bytes, and that every operand
fits its field. -/

namespace Sys2Proof

/-! ## Bits of a format (30_encoding R91) -/

theorem getLsbD_formatNNN (top : Nibble) (nnn : Addr) (i : Nat) :
    (formatNNN top nnn).getLsbD i = if i < 12 then nnn.getLsbD i else top.getLsbD (i - 12) :=
  BitVec.getLsbD_append

theorem getLsbD_formatXNN (top x : Nibble) (nn : Byte) (i : Nat) :
    (formatXNN top x nn).getLsbD i =
      if i < 8 then nn.getLsbD i else if i - 8 < 4 then x.getLsbD (i - 8) else top.getLsbD (i - 8 - 4) := by
  rw [← BitVec.getLsbD_append, ← BitVec.getLsbD_append]; rfl

theorem getLsbD_formatXYN (top x y n : Nibble) (i : Nat) :
    (formatXYN top x y n).getLsbD i =
      if i < 4 then n.getLsbD i else if i - 4 < 4 then y.getLsbD (i - 4)
      else if i - 4 - 4 < 4 then x.getLsbD (i - 4 - 4) else top.getLsbD (i - 4 - 4 - 4) := by
  rw [← BitVec.getLsbD_append, ← BitVec.getLsbD_append, ← BitVec.getLsbD_append]; rfl

/-! ## Fields of a format (00_scope R9, 30_encoding R92) -/

@[simp] theorem Opcode.top_formatNNN (top : Nibble) (nnn : Addr) : Opcode.top (formatNNN top nnn) = top := by
  apply BitVec.eq_of_getLsbD_eq; intro i hi
  have h : ¬ 12 + i < 12 := by omega
  simp [Opcode.top, getLsbD_formatNNN, h, hi]

@[simp] theorem Opcode.nnn_formatNNN (top : Nibble) (nnn : Addr) : Opcode.nnn (formatNNN top nnn) = nnn := by
  apply BitVec.eq_of_getLsbD_eq; intro i hi
  simp [Opcode.nnn, getLsbD_formatNNN, hi]

@[simp] theorem Opcode.top_formatXNN (top x : Nibble) (nn : Byte) : Opcode.top (formatXNN top x nn) = top := by
  apply BitVec.eq_of_getLsbD_eq; intro i hi
  have h : ¬ 12 + i < 8 := by omega
  have h' : ¬ 12 + i - 8 < 4 := by omega
  have e : 12 + i - 8 - 4 = i := by omega
  simp [Opcode.top, getLsbD_formatXNN, h, h', e, hi]

@[simp] theorem Opcode.x_formatXNN (top x : Nibble) (nn : Byte) : Opcode.x (formatXNN top x nn) = x := by
  apply BitVec.eq_of_getLsbD_eq; intro i hi
  have h : ¬ 8 + i < 8 := by omega
  simp [Opcode.x, getLsbD_formatXNN, h, hi]

@[simp] theorem Opcode.nn_formatXNN (top x : Nibble) (nn : Byte) : Opcode.nn (formatXNN top x nn) = nn := by
  apply BitVec.eq_of_getLsbD_eq; intro i hi
  simp [Opcode.nn, getLsbD_formatXNN, hi]

@[simp] theorem Opcode.top_formatXYN (top x y n : Nibble) : Opcode.top (formatXYN top x y n) = top := by
  apply BitVec.eq_of_getLsbD_eq; intro i hi
  have h : ¬ 12 + i < 4 := by omega
  have h' : ¬ 12 + i - 4 < 4 := by omega
  have h'' : ¬ 12 + i - 4 - 4 < 4 := by omega
  have e : 12 + i - 4 - 4 - 4 = i := by omega
  simp [Opcode.top, getLsbD_formatXYN, h, h', h'', e, hi]

@[simp] theorem Opcode.x_formatXYN (top x y n : Nibble) : Opcode.x (formatXYN top x y n) = x := by
  apply BitVec.eq_of_getLsbD_eq; intro i hi
  have h : ¬ 8 + i < 4 := by omega
  have h' : ¬ 8 + i - 4 < 4 := by omega
  have e : 8 + i - 4 - 4 = i := by omega
  simp [Opcode.x, getLsbD_formatXYN, h, h', e, hi]

@[simp] theorem Opcode.y_formatXYN (top x y n : Nibble) : Opcode.y (formatXYN top x y n) = y := by
  apply BitVec.eq_of_getLsbD_eq; intro i hi
  have h : ¬ 4 + i < 4 := by omega
  simp [Opcode.y, getLsbD_formatXYN, h, hi]

@[simp] theorem Opcode.n_formatXYN (top x y n : Nibble) : Opcode.n (formatXYN top x y n) = n := by
  apply BitVec.eq_of_getLsbD_eq; intro i hi
  simp [Opcode.n, getLsbD_formatXYN, hi]

/-- Format `XLL` has the bits of format `XNN`. -/
theorem formatXLL_eq (top x : Nibble) (ll : Byte) : formatXLL top x ll = formatXNN top x ll := rfl

/-! ## Bytes of an opcode -/

theorem getLsbD_ofBytes (hi lo : Byte) (i : Nat) :
    (Opcode.ofBytes hi lo).getLsbD i = if i < 8 then lo.getLsbD i else hi.getLsbD (i - 8) :=
  BitVec.getLsbD_append

/-- The opcode's bytes put together again are the opcode. -/
@[simp] theorem Opcode.ofBytes_bytes (op : Word) : Opcode.ofBytes (Opcode.hiByte op) (Opcode.loByte op) = op := by
  apply BitVec.eq_of_getLsbD_eq; intro i hi
  rw [getLsbD_ofBytes]
  split
  next h => simp [Opcode.loByte, h]
  next h =>
    have h' : i - 8 < 8 := by omega
    have e : 8 + (i - 8) = i := by omega
    simp [Opcode.hiByte, h', e]

@[simp] theorem Opcode.hiByte_ofBytes (hi lo : Byte) : Opcode.hiByte (Opcode.ofBytes hi lo) = hi := by
  apply BitVec.eq_of_getLsbD_eq; intro i h
  have h' : ¬ 8 + i < 8 := by omega
  simp [Opcode.hiByte, getLsbD_ofBytes, h, h']

@[simp] theorem Opcode.loByte_ofBytes (hi lo : Byte) : Opcode.loByte (Opcode.ofBytes hi lo) = lo := by
  apply BitVec.eq_of_getLsbD_eq; intro i h
  simp [Opcode.loByte, getLsbD_ofBytes, h]

/-- The opcode as a number: 256 times the byte at the lower address plus the next (20_memory R66). -/
theorem Opcode.toNat_ofBytes (hi lo : Byte) : (Opcode.ofBytes hi lo).toNat = 256 * hi.toNat + lo.toNat := by
  have h : (Opcode.ofBytes hi lo).toNat = hi.toNat <<< 8 ||| lo.toNat := BitVec.toNat_append hi lo
  have := lo.isLt
  rw [h, ← Nat.shiftLeft_add_eq_or_of_lt (by omega), Nat.shiftLeft_eq]; omega

/-! ## Operands -/

/-- Every instruction term is well formed: its operands fit their fields by their types. -/
theorem Instr.wellFormed_of_typing (i : Instr) : i.wellFormed = true := by
  cases i <;> simp [Instr.wellFormed, Operand.wellFormed] <;> omega

end Sys2Proof
end

