-- ==== Sys2Proof/Laws/Memory.lean ====
section
/-! SUPPORT. The laws of memory: a read after a write, the canonical form is kept by every operation, and equal
reads make equal canonical memories. -/

namespace Sys2Proof.Machine

variable {font : Font}

/-! ## Reading after one change -/

theorem Memory.read_list_same (m : Memory) (a : Nat) (v : Byte) (h : ∀ c ∈ m, c.1 ≠ a) :
    Memory.read font (Memory.list m a v) a = v := by
  induction m with
  | nil => simp [Memory.list, Memory.read]
  | cons c rest ih =>
    obtain ⟨k, w⟩ := c
    have hk : k ≠ a := h (k, w) (by simp)
    unfold Memory.list
    split
    · simp [Memory.read]
    · simp only [Memory.read, if_neg hk]
      exact ih fun c hc => h c (List.mem_cons_of_mem _ hc)

theorem Memory.read_list_other (m : Memory) (a b : Nat) (v : Byte) (h : b ≠ a) :
    Memory.read font (Memory.list m a v) b = Memory.read font m b := by
  induction m with
  | nil => simp [Memory.list, Memory.read, Ne.symm h]
  | cons c rest ih =>
    obtain ⟨k, w⟩ := c
    unfold Memory.list
    split
    · simp [Memory.read, Ne.symm h]
    · simp only [Memory.read, ih]

theorem Memory.read_unlist_same (m : Memory) (a : Nat) :
    Memory.read font (Memory.unlist m a) a = Memory.resetByte font a := by
  induction m with
  | nil => rfl
  | cons c rest ih =>
    obtain ⟨k, w⟩ := c
    by_cases hk : k = a
    · simpa [Memory.unlist, hk] using ih
    · simpa [Memory.unlist, hk, Memory.read] using ih

theorem Memory.read_unlist_other (m : Memory) (a b : Nat) (h : b ≠ a) :
    Memory.read font (Memory.unlist m a) b = Memory.read font m b := by
  induction m with
  | nil => rfl
  | cons c rest ih =>
    obtain ⟨k, w⟩ := c
    by_cases hk : k = a
    · subst hk; simpa [Memory.unlist, Memory.read, Ne.symm h] using ih
    · simp only [Memory.unlist, List.filter_cons, bne_iff_ne, ne_eq, hk, not_false_eq_true, if_true, Memory.read]
      split
      · rfl
      · exact ih

theorem Memory.unlist_unlisted (m : Memory) (a : Nat) : ∀ c ∈ Memory.unlist m a, c.1 ≠ a := by
  simp [Memory.unlist]

/-- The byte written reads back, and every other byte as before, in any list. -/
theorem Memory.read_write (m : Memory) (a b : Nat) (v : Byte) :
    Memory.read font (Memory.write font m a v) b = if b = a then v else Memory.read font m b := by
  unfold Memory.write
  split
  next hv =>
    split
    next h => rw [h, Memory.read_unlist_same, hv]
    next h => rw [Memory.read_unlist_other m a b h]
  next =>
    split
    next h => rw [h, Memory.read_list_same _ _ _ (Memory.unlist_unlisted m a)]
    next h => rw [Memory.read_list_other _ _ _ _ h, Memory.read_unlist_other m a b h]

/-! ## Reading after a run of writes -/

/-- A run of bytes reads back in order, and every byte outside it as before. -/
theorem Memory.read_writeBytes (m : Memory) (a b : Nat) (vs : List Byte) :
    Memory.read font (Memory.writeBytes font m a vs) b =
      if a ≤ b ∧ b < a + vs.length then vs.getD (b - a) 0 else Memory.read font m b := by
  induction vs generalizing m a with
  | nil => simp [Memory.writeBytes]
  | cons v vs ih =>
    rw [Memory.writeBytes, ih, Memory.read_write]
    by_cases h1 : b = a
    · subst h1; simp
    · by_cases h2 : a + 1 ≤ b ∧ b < a + 1 + vs.length
      · have h3 : a ≤ b ∧ b < a + (v :: vs).length := by simp only [List.length_cons]; omega
        have h4 : b - a = (b - (a + 1)) + 1 := by omega
        rw [if_pos h2, if_pos h3, h4, List.getD_cons_succ]
      · have h3 : ¬ (a ≤ b ∧ b < a + (v :: vs).length) := by simp only [List.length_cons]; omega
        rw [if_neg h2, if_neg h3, if_neg h1]

/-- A run reads as it was written when its length is the count read. -/
theorem Memory.readBytes_writeBytes (m : Memory) (a : Nat) (vs : List Byte) :
    Memory.readBytes font (Memory.writeBytes font m a vs) a vs.length = vs := by
  apply List.ext_getElem
  · simp [Memory.readBytes]
  · intro k h1 h2
    simp only [Memory.readBytes, List.getElem_map, List.getElem_range, Memory.read_writeBytes]
    rw [if_pos (by omega)]
    simp [h2]

@[simp] theorem Memory.length_readBytes (m : Memory) (a count : Nat) :
    (Memory.readBytes font m a count).length = count := by simp [Memory.readBytes]

theorem Memory.getElem_readBytes (m : Memory) (a count k : Nat) (h : k < (Memory.readBytes font m a count).length) :
    (Memory.readBytes font m a count)[k] = Memory.read font m (a + k) := by simp [Memory.readBytes]

/-! ## The canonical form -/

theorem Memory.wfAbove_cons (low k : Nat) (v : Byte) (rest : Memory) :
    Memory.wfAbove font low ((k, v) :: rest) = true ↔
      low ≤ k ∧ k ≤ 0xFFF ∧ v ≠ Memory.resetByte font k ∧ Memory.wfAbove font (k + 1) rest = true := by
  simp [Memory.wfAbove, and_assoc]

theorem Memory.wfAbove_mono {low low' : Nat} (m : Memory) (h : low' ≤ low) (hm : Memory.wfAbove font low m = true) :
    Memory.wfAbove font low' m = true := by
  cases m with
  | nil => rfl
  | cons c rest =>
    obtain ⟨k, v⟩ := c
    rw [Memory.wfAbove_cons] at hm ⊢
    exact ⟨by omega, hm.2⟩

theorem Memory.wfAbove_unlist (low : Nat) (m : Memory) (a : Nat) (hm : Memory.wfAbove font low m = true) :
    Memory.wfAbove font low (Memory.unlist m a) = true := by
  induction m generalizing low with
  | nil => rfl
  | cons c rest ih =>
    obtain ⟨k, v⟩ := c
    rw [Memory.wfAbove_cons] at hm
    by_cases hk : k = a
    · have := ih (k + 1) hm.2.2.2
      simpa [Memory.unlist, hk] using Memory.wfAbove_mono _ (by omega : low ≤ k + 1) this
    · have hr := ih (k + 1) hm.2.2.2
      have he : Memory.unlist ((k, v) :: rest) a = (k, v) :: Memory.unlist rest a := by
        simp [Memory.unlist, hk]
      rw [he, Memory.wfAbove_cons]
      exact ⟨hm.1, hm.2.1, hm.2.2.1, hr⟩

theorem Memory.wfAbove_list (low : Nat) (m : Memory) (a : Nat) (v : Byte) (hm : Memory.wfAbove font low m = true)
    (hl : low ≤ a) (ha : a ≤ 0xFFF) (hv : v ≠ Memory.resetByte font a) (hn : ∀ c ∈ m, c.1 ≠ a) :
    Memory.wfAbove font low (Memory.list m a v) = true := by
  induction m generalizing low with
  | nil => simp [Memory.list, Memory.wfAbove, hl, ha, hv]
  | cons c rest ih =>
    obtain ⟨k, w⟩ := c
    have hk : k ≠ a := hn (k, w) (by simp)
    rw [Memory.wfAbove_cons] at hm
    unfold Memory.list
    split
    next h =>
      rw [Memory.wfAbove_cons, Memory.wfAbove_cons]
      exact ⟨hl, ha, hv, by omega, hm.2.1, hm.2.2.1, hm.2.2.2⟩
    next h =>
      rw [Memory.wfAbove_cons]
      exact ⟨hm.1, hm.2.1, hm.2.2.1,
        ih (k + 1) hm.2.2.2 (by omega) fun c hc => hn c (List.mem_cons_of_mem _ hc)⟩

/-- A write to an address that exists keeps the canonical form. -/
theorem Memory.wf_write (m : Memory) (a : Nat) (v : Byte) (hm : m.wf font = true) (ha : a ≤ 0xFFF) :
    Memory.wf font (Memory.write font m a v) = true := by
  unfold Memory.write
  split
  · exact Memory.wfAbove_unlist 0 m a hm
  next hv =>
    exact Memory.wfAbove_list 0 _ a v (Memory.wfAbove_unlist 0 m a hm) (Nat.zero_le a) ha hv
      (Memory.unlist_unlisted m a)

/-- A run of writes to addresses that exist keeps the canonical form. -/
theorem Memory.wf_writeBytes (m : Memory) (a : Nat) (vs : List Byte) (hm : m.wf font = true)
    (ha : a + vs.length ≤ 0x1000) : Memory.wf font (Memory.writeBytes font m a vs) = true := by
  induction vs generalizing m a with
  | nil => exact hm
  | cons v vs ih =>
    simp only [List.length_cons] at ha
    exact ih _ _ (Memory.wf_write m a v hm (by omega)) (by omega)

/-- The memory of the reset state, which lists nothing, has the canonical form. -/
theorem Memory.wf_nil : Memory.wf font [] = true := rfl

/-- Below the first address it may list, a canonical memory reads as at reset. -/
theorem Memory.read_below (low : Nat) (m : Memory) (a : Nat) (hm : Memory.wfAbove font low m = true) (ha : a < low) :
    Memory.read font m a = Memory.resetByte font a := by
  induction m generalizing low with
  | nil => rfl
  | cons c rest ih =>
    obtain ⟨k, v⟩ := c
    rw [Memory.wfAbove_cons] at hm
    have hk : k ≠ a := by omega
    rw [Memory.read, if_neg hk]
    exact ih (k + 1) hm.2.2.2 (by omega)

theorem Memory.ext_above (low : Nat) (m m' : Memory) (hm : Memory.wfAbove font low m = true)
    (hm' : Memory.wfAbove font low m' = true) (h : ∀ a, Memory.read font m a = Memory.read font m' a) : m = m' := by
  induction m generalizing low m' with
  | nil =>
    cases m' with
    | nil => rfl
    | cons c rest =>
      obtain ⟨k, v⟩ := c
      rw [Memory.wfAbove_cons] at hm'
      have := h k
      simp only [Memory.read, if_true] at this
      exact absurd this.symm hm'.2.2.1
  | cons c rest ih =>
    obtain ⟨k, v⟩ := c
    have hm0 := hm
    rw [Memory.wfAbove_cons] at hm
    cases m' with
    | nil =>
      have := h k
      simp only [Memory.read, if_true] at this
      exact absurd this hm.2.2.1
    | cons c' rest' =>
      obtain ⟨k', v'⟩ := c'
      have hm0' := hm'
      rw [Memory.wfAbove_cons] at hm'
      have hk : k = k' := by
        rcases Nat.lt_trichotomy k k' with hlt | heq | hgt
        · have h1 := h k
          rw [Memory.read_below k' ((k', v') :: rest') k
            ((Memory.wfAbove_cons _ _ _ _).2 ⟨le_refl _, hm'.2⟩) hlt] at h1
          simp only [Memory.read, if_true] at h1
          exact absurd h1 hm.2.2.1
        · exact heq
        · have h1 := (h k').symm
          rw [Memory.read_below k ((k, v) :: rest) k'
            ((Memory.wfAbove_cons _ _ _ _).2 ⟨le_refl _, hm.2⟩) hgt] at h1
          simp only [Memory.read, if_true] at h1
          exact absurd h1 hm'.2.2.1
      subst hk
      have hv : v = v' := by simpa [Memory.read] using h k
      subst hv
      rw [ih (k + 1) rest' hm.2.2.2 hm'.2.2.2 fun a => ?_]
      by_cases ha : k = a
      · rw [Memory.read_below (k + 1) rest a hm.2.2.2 (by omega),
          Memory.read_below (k + 1) rest' a hm'.2.2.2 (by omega)]
      · have := h a
        simpa only [Memory.read, if_neg ha] using this

/-- Canonical memories that read alike are the same list. -/
theorem Memory.ext_read (m m' : Memory) (hm : m.wf font = true) (hm' : m'.wf font = true)
    (h : ∀ a, Memory.read font m a = Memory.read font m' a) : m = m' :=
  Memory.ext_above 0 m m' hm hm' h

/-! ## The memory of a state -/

/-- Bytes stored read back in order, and every byte outside them as before. -/
theorem State.byteAt_storeBytes (s : State) (a b : Nat) (vs : List Byte) :
    (s.storeBytes a vs).byteAt b = if a ≤ b ∧ b < a + vs.length then vs.getD (b - a) 0 else s.byteAt b :=
  Memory.read_writeBytes s.mem a b vs

/-- Storing bytes at addresses that exist keeps the canonical form. -/
theorem State.memWf_storeBytes (s : State) (a : Nat) (vs : List Byte) (h : s.memWf = true)
    (ha : a + vs.length ≤ 0x1000) : (s.storeBytes a vs).memWf = true :=
  Memory.wf_writeBytes s.mem a vs h ha

@[simp] theorem State.length_bytesAt (s : State) (a count : Nat) : (s.bytesAt a count).length = count :=
  Memory.length_readBytes s.mem a count

theorem State.getElem_bytesAt (s : State) (a count k : Nat) (h : k < (s.bytesAt a count).length) :
    (s.bytesAt a count)[k] = s.byteAt (a + k) := Memory.getElem_readBytes s.mem a count k h

/-- The reset state lists nothing, so its memory has the canonical form, whatever `FONT` is. -/
theorem State.memWf_resetWith (font : Font) : (State.resetWith font).memWf = true := rfl

/-- Memory right after reset: `FONT` at 0x000 to 0x04F and zeros above. -/
theorem State.byteAt_resetWith (font : Font) (a : Nat) :
    (State.resetWith font).byteAt a = if a ≤ 0x04F then fontByte font a else 0 := rfl

end Sys2Proof.Machine
end

