-- ==== Sys2Proof/Laws/State.lean ====
section
/-! SUPPORT. One lemma per field per update of the state, so that no later proof unfolds a record update, and what
each accessor reads after each update. -/

namespace Sys2Proof.Machine

/-! ## `State.writeV` -/

@[simp] theorem State.writeV_mem (s : State) (x : Nibble) (v : Byte) :
    (s.writeV x v).mem = s.mem := rfl
@[simp] theorem State.writeV_fb (s : State) (x : Nibble) (v : Byte) :
    (s.writeV x v).fb = s.fb := rfl
@[simp] theorem State.writeV_stack (s : State) (x : Nibble) (v : Byte) :
    (s.writeV x v).stack = s.stack := rfl
@[simp] theorem State.writeV_sp (s : State) (x : Nibble) (v : Byte) :
    (s.writeV x v).sp = s.sp := rfl
@[simp] theorem State.writeV_I (s : State) (x : Nibble) (v : Byte) :
    (s.writeV x v).I = s.I := rfl
@[simp] theorem State.writeV_pc (s : State) (x : Nibble) (v : Byte) :
    (s.writeV x v).pc = s.pc := rfl
@[simp] theorem State.writeV_DT (s : State) (x : Nibble) (v : Byte) :
    (s.writeV x v).DT = s.DT := rfl
@[simp] theorem State.writeV_ST (s : State) (x : Nibble) (v : Byte) :
    (s.writeV x v).ST = s.ST := rfl
@[simp] theorem State.writeV_key (s : State) (x : Nibble) (v : Byte) :
    (s.writeV x v).key = s.key := rfl
@[simp] theorem State.writeV_awaitingKey (s : State) (x : Nibble) (v : Byte) :
    (s.writeV x v).awaitingKey = s.awaitingKey := rfl
@[simp] theorem State.writeV_keyTarget (s : State) (x : Nibble) (v : Byte) :
    (s.writeV x v).keyTarget = s.keyTarget := rfl
@[simp] theorem State.writeV_redraw (s : State) (x : Nibble) (v : Byte) :
    (s.writeV x v).redraw = s.redraw := rfl
@[simp] theorem State.writeV_fault (s : State) (x : Nibble) (v : Byte) :
    (s.writeV x v).fault = s.fault := rfl
@[simp] theorem State.writeV_rndDraws (s : State) (x : Nibble) (v : Byte) :
    (s.writeV x v).rndDraws = s.rndDraws := rfl
@[simp] theorem State.writeV_font (s : State) (x : Nibble) (v : Byte) :
    (s.writeV x v).font = s.font := rfl

/-! ## `State.advance` -/

@[simp] theorem State.advance_mem (s : State) (k : Word) :
    (s.advance k).mem = s.mem := rfl
@[simp] theorem State.advance_fb (s : State) (k : Word) :
    (s.advance k).fb = s.fb := rfl
@[simp] theorem State.advance_V (s : State) (k : Word) :
    (s.advance k).V = s.V := rfl
@[simp] theorem State.advance_stack (s : State) (k : Word) :
    (s.advance k).stack = s.stack := rfl
@[simp] theorem State.advance_sp (s : State) (k : Word) :
    (s.advance k).sp = s.sp := rfl
@[simp] theorem State.advance_I (s : State) (k : Word) :
    (s.advance k).I = s.I := rfl
@[simp] theorem State.advance_pc (s : State) (k : Word) :
    (s.advance k).pc = s.pc + k := rfl
@[simp] theorem State.advance_DT (s : State) (k : Word) :
    (s.advance k).DT = s.DT := rfl
@[simp] theorem State.advance_ST (s : State) (k : Word) :
    (s.advance k).ST = s.ST := rfl
@[simp] theorem State.advance_key (s : State) (k : Word) :
    (s.advance k).key = s.key := rfl
@[simp] theorem State.advance_awaitingKey (s : State) (k : Word) :
    (s.advance k).awaitingKey = s.awaitingKey := rfl
@[simp] theorem State.advance_keyTarget (s : State) (k : Word) :
    (s.advance k).keyTarget = s.keyTarget := rfl
@[simp] theorem State.advance_redraw (s : State) (k : Word) :
    (s.advance k).redraw = s.redraw := rfl
@[simp] theorem State.advance_fault (s : State) (k : Word) :
    (s.advance k).fault = s.fault := rfl
@[simp] theorem State.advance_rndDraws (s : State) (k : Word) :
    (s.advance k).rndDraws = s.rndDraws := rfl
@[simp] theorem State.advance_font (s : State) (k : Word) :
    (s.advance k).font = s.font := rfl

/-! ## `State.jump` -/

@[simp] theorem State.jump_mem (s : State) (target : Word) :
    (s.jump target).mem = s.mem := rfl
@[simp] theorem State.jump_fb (s : State) (target : Word) :
    (s.jump target).fb = s.fb := rfl
@[simp] theorem State.jump_V (s : State) (target : Word) :
    (s.jump target).V = s.V := rfl
@[simp] theorem State.jump_stack (s : State) (target : Word) :
    (s.jump target).stack = s.stack := rfl
@[simp] theorem State.jump_sp (s : State) (target : Word) :
    (s.jump target).sp = s.sp := rfl
@[simp] theorem State.jump_I (s : State) (target : Word) :
    (s.jump target).I = s.I := rfl
@[simp] theorem State.jump_pc (s : State) (target : Word) :
    (s.jump target).pc = target := rfl
@[simp] theorem State.jump_DT (s : State) (target : Word) :
    (s.jump target).DT = s.DT := rfl
@[simp] theorem State.jump_ST (s : State) (target : Word) :
    (s.jump target).ST = s.ST := rfl
@[simp] theorem State.jump_key (s : State) (target : Word) :
    (s.jump target).key = s.key := rfl
@[simp] theorem State.jump_awaitingKey (s : State) (target : Word) :
    (s.jump target).awaitingKey = s.awaitingKey := rfl
@[simp] theorem State.jump_keyTarget (s : State) (target : Word) :
    (s.jump target).keyTarget = s.keyTarget := rfl
@[simp] theorem State.jump_redraw (s : State) (target : Word) :
    (s.jump target).redraw = s.redraw := rfl
@[simp] theorem State.jump_fault (s : State) (target : Word) :
    (s.jump target).fault = s.fault := rfl
@[simp] theorem State.jump_rndDraws (s : State) (target : Word) :
    (s.jump target).rndDraws = s.rndDraws := rfl
@[simp] theorem State.jump_font (s : State) (target : Word) :
    (s.jump target).font = s.font := rfl

/-! ## `State.writeFlag` -/

@[simp] theorem State.writeFlag_mem (s : State) (f : Bool) :
    (s.writeFlag f).mem = s.mem := rfl
@[simp] theorem State.writeFlag_fb (s : State) (f : Bool) :
    (s.writeFlag f).fb = s.fb := rfl
@[simp] theorem State.writeFlag_stack (s : State) (f : Bool) :
    (s.writeFlag f).stack = s.stack := rfl
@[simp] theorem State.writeFlag_sp (s : State) (f : Bool) :
    (s.writeFlag f).sp = s.sp := rfl
@[simp] theorem State.writeFlag_I (s : State) (f : Bool) :
    (s.writeFlag f).I = s.I := rfl
@[simp] theorem State.writeFlag_pc (s : State) (f : Bool) :
    (s.writeFlag f).pc = s.pc := rfl
@[simp] theorem State.writeFlag_DT (s : State) (f : Bool) :
    (s.writeFlag f).DT = s.DT := rfl
@[simp] theorem State.writeFlag_ST (s : State) (f : Bool) :
    (s.writeFlag f).ST = s.ST := rfl
@[simp] theorem State.writeFlag_key (s : State) (f : Bool) :
    (s.writeFlag f).key = s.key := rfl
@[simp] theorem State.writeFlag_awaitingKey (s : State) (f : Bool) :
    (s.writeFlag f).awaitingKey = s.awaitingKey := rfl
@[simp] theorem State.writeFlag_keyTarget (s : State) (f : Bool) :
    (s.writeFlag f).keyTarget = s.keyTarget := rfl
@[simp] theorem State.writeFlag_redraw (s : State) (f : Bool) :
    (s.writeFlag f).redraw = s.redraw := rfl
@[simp] theorem State.writeFlag_fault (s : State) (f : Bool) :
    (s.writeFlag f).fault = s.fault := rfl
@[simp] theorem State.writeFlag_rndDraws (s : State) (f : Bool) :
    (s.writeFlag f).rndDraws = s.rndDraws := rfl
@[simp] theorem State.writeFlag_font (s : State) (f : Bool) :
    (s.writeFlag f).font = s.font := rfl

/-! ## `State.writeResultAndFlag` -/

@[simp] theorem State.writeResultAndFlag_mem (s : State) (x : Nibble) (v : Byte) (f : Bool) :
    (s.writeResultAndFlag x v f).mem = s.mem := rfl
@[simp] theorem State.writeResultAndFlag_fb (s : State) (x : Nibble) (v : Byte) (f : Bool) :
    (s.writeResultAndFlag x v f).fb = s.fb := rfl
@[simp] theorem State.writeResultAndFlag_stack (s : State) (x : Nibble) (v : Byte) (f : Bool) :
    (s.writeResultAndFlag x v f).stack = s.stack := rfl
@[simp] theorem State.writeResultAndFlag_sp (s : State) (x : Nibble) (v : Byte) (f : Bool) :
    (s.writeResultAndFlag x v f).sp = s.sp := rfl
@[simp] theorem State.writeResultAndFlag_I (s : State) (x : Nibble) (v : Byte) (f : Bool) :
    (s.writeResultAndFlag x v f).I = s.I := rfl
@[simp] theorem State.writeResultAndFlag_pc (s : State) (x : Nibble) (v : Byte) (f : Bool) :
    (s.writeResultAndFlag x v f).pc = s.pc := rfl
@[simp] theorem State.writeResultAndFlag_DT (s : State) (x : Nibble) (v : Byte) (f : Bool) :
    (s.writeResultAndFlag x v f).DT = s.DT := rfl
@[simp] theorem State.writeResultAndFlag_ST (s : State) (x : Nibble) (v : Byte) (f : Bool) :
    (s.writeResultAndFlag x v f).ST = s.ST := rfl
@[simp] theorem State.writeResultAndFlag_key (s : State) (x : Nibble) (v : Byte) (f : Bool) :
    (s.writeResultAndFlag x v f).key = s.key := rfl
@[simp] theorem State.writeResultAndFlag_awaitingKey (s : State) (x : Nibble) (v : Byte) (f : Bool) :
    (s.writeResultAndFlag x v f).awaitingKey = s.awaitingKey := rfl
@[simp] theorem State.writeResultAndFlag_keyTarget (s : State) (x : Nibble) (v : Byte) (f : Bool) :
    (s.writeResultAndFlag x v f).keyTarget = s.keyTarget := rfl
@[simp] theorem State.writeResultAndFlag_redraw (s : State) (x : Nibble) (v : Byte) (f : Bool) :
    (s.writeResultAndFlag x v f).redraw = s.redraw := rfl
@[simp] theorem State.writeResultAndFlag_fault (s : State) (x : Nibble) (v : Byte) (f : Bool) :
    (s.writeResultAndFlag x v f).fault = s.fault := rfl
@[simp] theorem State.writeResultAndFlag_rndDraws (s : State) (x : Nibble) (v : Byte) (f : Bool) :
    (s.writeResultAndFlag x v f).rndDraws = s.rndDraws := rfl
@[simp] theorem State.writeResultAndFlag_font (s : State) (x : Nibble) (v : Byte) (f : Bool) :
    (s.writeResultAndFlag x v f).font = s.font := rfl

/-! ## `State.takeFault` -/

@[simp] theorem State.takeFault_mem (s : State) (c : FaultCause) (op : Word) :
    (s.takeFault c op).mem = s.mem := rfl
@[simp] theorem State.takeFault_fb (s : State) (c : FaultCause) (op : Word) :
    (s.takeFault c op).fb = s.fb := rfl
@[simp] theorem State.takeFault_V (s : State) (c : FaultCause) (op : Word) :
    (s.takeFault c op).V = s.V := rfl
@[simp] theorem State.takeFault_stack (s : State) (c : FaultCause) (op : Word) :
    (s.takeFault c op).stack = s.stack := rfl
@[simp] theorem State.takeFault_sp (s : State) (c : FaultCause) (op : Word) :
    (s.takeFault c op).sp = s.sp := rfl
@[simp] theorem State.takeFault_I (s : State) (c : FaultCause) (op : Word) :
    (s.takeFault c op).I = s.I := rfl
@[simp] theorem State.takeFault_pc (s : State) (c : FaultCause) (op : Word) :
    (s.takeFault c op).pc = s.pc := rfl
@[simp] theorem State.takeFault_DT (s : State) (c : FaultCause) (op : Word) :
    (s.takeFault c op).DT = s.DT := rfl
@[simp] theorem State.takeFault_ST (s : State) (c : FaultCause) (op : Word) :
    (s.takeFault c op).ST = s.ST := rfl
@[simp] theorem State.takeFault_key (s : State) (c : FaultCause) (op : Word) :
    (s.takeFault c op).key = s.key := rfl
@[simp] theorem State.takeFault_awaitingKey (s : State) (c : FaultCause) (op : Word) :
    (s.takeFault c op).awaitingKey = s.awaitingKey := rfl
@[simp] theorem State.takeFault_keyTarget (s : State) (c : FaultCause) (op : Word) :
    (s.takeFault c op).keyTarget = s.keyTarget := rfl
@[simp] theorem State.takeFault_redraw (s : State) (c : FaultCause) (op : Word) :
    (s.takeFault c op).redraw = s.redraw := rfl
@[simp] theorem State.takeFault_fault (s : State) (c : FaultCause) (op : Word) :
    (s.takeFault c op).fault = some ⟨c, s.pc, op⟩ := rfl
@[simp] theorem State.takeFault_rndDraws (s : State) (c : FaultCause) (op : Word) :
    (s.takeFault c op).rndDraws = s.rndDraws := rfl
@[simp] theorem State.takeFault_font (s : State) (c : FaultCause) (op : Word) :
    (s.takeFault c op).font = s.font := rfl

/-! ## `State.writeKey` -/

@[simp] theorem State.writeKey_mem (s : State) (k : Nibble) (p : Bool) :
    (s.writeKey k p).mem = s.mem := rfl
@[simp] theorem State.writeKey_fb (s : State) (k : Nibble) (p : Bool) :
    (s.writeKey k p).fb = s.fb := rfl
@[simp] theorem State.writeKey_V (s : State) (k : Nibble) (p : Bool) :
    (s.writeKey k p).V = s.V := rfl
@[simp] theorem State.writeKey_stack (s : State) (k : Nibble) (p : Bool) :
    (s.writeKey k p).stack = s.stack := rfl
@[simp] theorem State.writeKey_sp (s : State) (k : Nibble) (p : Bool) :
    (s.writeKey k p).sp = s.sp := rfl
@[simp] theorem State.writeKey_I (s : State) (k : Nibble) (p : Bool) :
    (s.writeKey k p).I = s.I := rfl
@[simp] theorem State.writeKey_pc (s : State) (k : Nibble) (p : Bool) :
    (s.writeKey k p).pc = s.pc := rfl
@[simp] theorem State.writeKey_DT (s : State) (k : Nibble) (p : Bool) :
    (s.writeKey k p).DT = s.DT := rfl
@[simp] theorem State.writeKey_ST (s : State) (k : Nibble) (p : Bool) :
    (s.writeKey k p).ST = s.ST := rfl
@[simp] theorem State.writeKey_awaitingKey (s : State) (k : Nibble) (p : Bool) :
    (s.writeKey k p).awaitingKey = s.awaitingKey := rfl
@[simp] theorem State.writeKey_keyTarget (s : State) (k : Nibble) (p : Bool) :
    (s.writeKey k p).keyTarget = s.keyTarget := rfl
@[simp] theorem State.writeKey_redraw (s : State) (k : Nibble) (p : Bool) :
    (s.writeKey k p).redraw = s.redraw := rfl
@[simp] theorem State.writeKey_fault (s : State) (k : Nibble) (p : Bool) :
    (s.writeKey k p).fault = s.fault := rfl
@[simp] theorem State.writeKey_rndDraws (s : State) (k : Nibble) (p : Bool) :
    (s.writeKey k p).rndDraws = s.rndDraws := rfl
@[simp] theorem State.writeKey_font (s : State) (k : Nibble) (p : Bool) :
    (s.writeKey k p).font = s.font := rfl

/-! ## `State.drawRnd` -/

@[simp] theorem State.drawRnd_mem (s : State) :
    s.drawRnd.2.mem = s.mem := rfl
@[simp] theorem State.drawRnd_fb (s : State) :
    s.drawRnd.2.fb = s.fb := rfl
@[simp] theorem State.drawRnd_V (s : State) :
    s.drawRnd.2.V = s.V := rfl
@[simp] theorem State.drawRnd_stack (s : State) :
    s.drawRnd.2.stack = s.stack := rfl
@[simp] theorem State.drawRnd_sp (s : State) :
    s.drawRnd.2.sp = s.sp := rfl
@[simp] theorem State.drawRnd_I (s : State) :
    s.drawRnd.2.I = s.I := rfl
@[simp] theorem State.drawRnd_pc (s : State) :
    s.drawRnd.2.pc = s.pc := rfl
@[simp] theorem State.drawRnd_DT (s : State) :
    s.drawRnd.2.DT = s.DT := rfl
@[simp] theorem State.drawRnd_ST (s : State) :
    s.drawRnd.2.ST = s.ST := rfl
@[simp] theorem State.drawRnd_key (s : State) :
    s.drawRnd.2.key = s.key := rfl
@[simp] theorem State.drawRnd_awaitingKey (s : State) :
    s.drawRnd.2.awaitingKey = s.awaitingKey := rfl
@[simp] theorem State.drawRnd_keyTarget (s : State) :
    s.drawRnd.2.keyTarget = s.keyTarget := rfl
@[simp] theorem State.drawRnd_redraw (s : State) :
    s.drawRnd.2.redraw = s.redraw := rfl
@[simp] theorem State.drawRnd_fault (s : State) :
    s.drawRnd.2.fault = s.fault := rfl
@[simp] theorem State.drawRnd_rndDraws (s : State) :
    s.drawRnd.2.rndDraws = s.rndDraws + 1 := rfl
@[simp] theorem State.drawRnd_font (s : State) :
    s.drawRnd.2.font = s.font := rfl

/-! ## `State.storeBytes` -/

@[simp] theorem State.storeBytes_mem (s : State) (a : Nat) (vs : List Byte) :
    (s.storeBytes a vs).mem = s.mem.writeBytes s.font a vs := rfl
@[simp] theorem State.storeBytes_fb (s : State) (a : Nat) (vs : List Byte) :
    (s.storeBytes a vs).fb = s.fb := rfl
@[simp] theorem State.storeBytes_V (s : State) (a : Nat) (vs : List Byte) :
    (s.storeBytes a vs).V = s.V := rfl
@[simp] theorem State.storeBytes_stack (s : State) (a : Nat) (vs : List Byte) :
    (s.storeBytes a vs).stack = s.stack := rfl
@[simp] theorem State.storeBytes_sp (s : State) (a : Nat) (vs : List Byte) :
    (s.storeBytes a vs).sp = s.sp := rfl
@[simp] theorem State.storeBytes_I (s : State) (a : Nat) (vs : List Byte) :
    (s.storeBytes a vs).I = s.I := rfl
@[simp] theorem State.storeBytes_pc (s : State) (a : Nat) (vs : List Byte) :
    (s.storeBytes a vs).pc = s.pc := rfl
@[simp] theorem State.storeBytes_DT (s : State) (a : Nat) (vs : List Byte) :
    (s.storeBytes a vs).DT = s.DT := rfl
@[simp] theorem State.storeBytes_ST (s : State) (a : Nat) (vs : List Byte) :
    (s.storeBytes a vs).ST = s.ST := rfl
@[simp] theorem State.storeBytes_key (s : State) (a : Nat) (vs : List Byte) :
    (s.storeBytes a vs).key = s.key := rfl
@[simp] theorem State.storeBytes_awaitingKey (s : State) (a : Nat) (vs : List Byte) :
    (s.storeBytes a vs).awaitingKey = s.awaitingKey := rfl
@[simp] theorem State.storeBytes_keyTarget (s : State) (a : Nat) (vs : List Byte) :
    (s.storeBytes a vs).keyTarget = s.keyTarget := rfl
@[simp] theorem State.storeBytes_redraw (s : State) (a : Nat) (vs : List Byte) :
    (s.storeBytes a vs).redraw = s.redraw := rfl
@[simp] theorem State.storeBytes_fault (s : State) (a : Nat) (vs : List Byte) :
    (s.storeBytes a vs).fault = s.fault := rfl
@[simp] theorem State.storeBytes_rndDraws (s : State) (a : Nat) (vs : List Byte) :
    (s.storeBytes a vs).rndDraws = s.rndDraws := rfl
@[simp] theorem State.storeBytes_font (s : State) (a : Nat) (vs : List Byte) :
    (s.storeBytes a vs).font = s.font := rfl

/-! ## `State.skipIf` -/

@[simp] theorem State.skipIf_mem (s : State) (c : Bool) :
    (s.skipIf c).mem = s.mem := by
  cases c <;> rfl
@[simp] theorem State.skipIf_fb (s : State) (c : Bool) :
    (s.skipIf c).fb = s.fb := by
  cases c <;> rfl
@[simp] theorem State.skipIf_V (s : State) (c : Bool) :
    (s.skipIf c).V = s.V := by
  cases c <;> rfl
@[simp] theorem State.skipIf_stack (s : State) (c : Bool) :
    (s.skipIf c).stack = s.stack := by
  cases c <;> rfl
@[simp] theorem State.skipIf_sp (s : State) (c : Bool) :
    (s.skipIf c).sp = s.sp := by
  cases c <;> rfl
@[simp] theorem State.skipIf_I (s : State) (c : Bool) :
    (s.skipIf c).I = s.I := by
  cases c <;> rfl
@[simp] theorem State.skipIf_pc (s : State) (c : Bool) :
    (s.skipIf c).pc = if c then s.pc + 4 else s.pc + 2 := by
  cases c <;> rfl
@[simp] theorem State.skipIf_DT (s : State) (c : Bool) :
    (s.skipIf c).DT = s.DT := by
  cases c <;> rfl
@[simp] theorem State.skipIf_ST (s : State) (c : Bool) :
    (s.skipIf c).ST = s.ST := by
  cases c <;> rfl
@[simp] theorem State.skipIf_key (s : State) (c : Bool) :
    (s.skipIf c).key = s.key := by
  cases c <;> rfl
@[simp] theorem State.skipIf_awaitingKey (s : State) (c : Bool) :
    (s.skipIf c).awaitingKey = s.awaitingKey := by
  cases c <;> rfl
@[simp] theorem State.skipIf_keyTarget (s : State) (c : Bool) :
    (s.skipIf c).keyTarget = s.keyTarget := by
  cases c <;> rfl
@[simp] theorem State.skipIf_redraw (s : State) (c : Bool) :
    (s.skipIf c).redraw = s.redraw := by
  cases c <;> rfl
@[simp] theorem State.skipIf_fault (s : State) (c : Bool) :
    (s.skipIf c).fault = s.fault := by
  cases c <;> rfl
@[simp] theorem State.skipIf_rndDraws (s : State) (c : Bool) :
    (s.skipIf c).rndDraws = s.rndDraws := by
  cases c <;> rfl
@[simp] theorem State.skipIf_font (s : State) (c : Bool) :
    (s.skipIf c).font = s.font := by
  cases c <;> rfl

/-! ## Reading a register after an update -/

theorem State.readV_congr {s t : State} (h : t.V = s.V) (x : Nibble) : t.readV x = s.readV x := by
  simp only [State.readV, h]

/-- A register reads as written, and every other register as before. -/
theorem State.readV_writeV (s : State) (x r : Nibble) (v : Byte) :
    (s.writeV x v).readV r = if r = x then v else s.readV r := by
  by_cases h : r = x
  · subst h; simp [State.readV, State.writeV]
  · have hne : x.toNat ≠ r.toNat := fun e => h (BitVec.eq_of_toNat_eq e.symm)
    simp [State.readV, State.writeV, h, hne]

/-- `VF` reads as the flag, and every other register as before. -/
theorem State.readV_writeFlag (s : State) (r : Nibble) (f : Bool) :
    (s.writeFlag f).readV r = if r = VF then flagByte f else s.readV r :=
  s.readV_writeV VF r (flagByte f)

/-- The flag is the last write: it stands when `x` is `VF`. -/
theorem State.readV_writeResultAndFlag (s : State) (x r : Nibble) (v : Byte) (f : Bool) :
    (s.writeResultAndFlag x v f).readV r =
      if r = VF then flagByte f else if r = x then v else s.readV r := by
  simp only [State.writeResultAndFlag, State.readV_writeFlag, State.readV_writeV]

theorem State.readV_writeV_same (s : State) (x : Nibble) (v : Byte) : (s.writeV x v).readV x = v := by
  rw [State.readV_writeV, if_pos rfl]

theorem State.readV_writeV_other (s : State) {x r : Nibble} (v : Byte) (h : r ≠ x) :
    (s.writeV x v).readV r = s.readV r := by
  rw [State.readV_writeV, if_neg h]

/-- After a flag-writing instruction `VF` holds the flag, whichever register `x` is. -/
theorem State.readV_writeResultAndFlag_flag (s : State) (x : Nibble) (v : Byte) (f : Bool) :
    (s.writeResultAndFlag x v f).readV VF = flagByte f := by
  rw [State.readV_writeResultAndFlag, if_pos rfl]

/-- After a flag-writing instruction `V[x]` holds the result, unless it is `VF`. -/
theorem State.readV_writeResultAndFlag_result (s : State) {x : Nibble} (v : Byte) (f : Bool) (h : x ≠ VF) :
    (s.writeResultAndFlag x v f).readV x = v := by
  rw [State.readV_writeResultAndFlag, if_neg h, if_pos rfl]

theorem State.readV_writeResultAndFlag_other (s : State) {x r : Nibble} (v : Byte) (f : Bool) (h : r ≠ VF)
    (h' : r ≠ x) : (s.writeResultAndFlag x v f).readV r = s.readV r := by
  rw [State.readV_writeResultAndFlag, if_neg h, if_neg h']

@[simp] theorem State.readV_advance (s : State) (k : Word) (r : Nibble) : (s.advance k).readV r = s.readV r := rfl
@[simp] theorem State.readV_jump (s : State) (t : Word) (r : Nibble) : (s.jump t).readV r = s.readV r := rfl
@[simp] theorem State.readV_drawRnd (s : State) (r : Nibble) : s.drawRnd.2.readV r = s.readV r := rfl
@[simp] theorem State.readV_takeFault (s : State) (c : FaultCause) (op : Word) (r : Nibble) :
    (s.takeFault c op).readV r = s.readV r := rfl
@[simp] theorem State.readV_skipIf (s : State) (c : Bool) (r : Nibble) : (s.skipIf c).readV r = s.readV r :=
  State.readV_congr (s.skipIf_V c) r
@[simp] theorem State.readV_writeKey (s : State) (k r : Nibble) (p : Bool) : (s.writeKey k p).readV r = s.readV r := rfl

/-! ## Reading a key after an update -/

/-- A key reads as written, and every other key as before. -/
theorem State.keyDown_writeKey (s : State) (k : Nibble) (p : Bool) (j : Nat) :
    (s.writeKey k p).keyDown j = if j = k.toNat then p else s.keyDown j := by
  have hk := k.isLt
  by_cases hj : j < 16
  · by_cases h : j = k.toNat
    · subst h; simp [State.keyDown, State.writeKey, hj]
    · have hne : k.toNat ≠ j := fun e => h e.symm
      simp [State.keyDown, State.writeKey, hj, h, hne]
  · have hne : j ≠ k.toNat := by omega
    simp [State.keyDown, hj, hne]

@[simp] theorem State.keyDown_writeV (s : State) (x : Nibble) (v : Byte) (j : Nat) :
    (s.writeV x v).keyDown j = s.keyDown j := rfl

/-! ## Reading memory after an update -/

/-- A read of memory depends on the memory and on `FONT` only. -/
theorem State.byteAt_congr {s t : State} (hm : t.mem = s.mem) (hf : t.font = s.font) (a : Nat) :
    t.byteAt a = s.byteAt a := by
  rw [State.byteAt, State.byteAt, hm, hf]

@[simp] theorem State.byteAt_writeV (s : State) (x : Nibble) (v : Byte) (a : Nat) :
    (s.writeV x v).byteAt a = s.byteAt a := rfl
@[simp] theorem State.byteAt_advance (s : State) (k : Word) (a : Nat) : (s.advance k).byteAt a = s.byteAt a := rfl
@[simp] theorem State.byteAt_jump (s : State) (t : Word) (a : Nat) : (s.jump t).byteAt a = s.byteAt a := rfl
@[simp] theorem State.byteAt_writeFlag (s : State) (f : Bool) (a : Nat) : (s.writeFlag f).byteAt a = s.byteAt a := rfl
@[simp] theorem State.byteAt_writeResultAndFlag (s : State) (x : Nibble) (v : Byte) (f : Bool) (a : Nat) :
    (s.writeResultAndFlag x v f).byteAt a = s.byteAt a := rfl
@[simp] theorem State.byteAt_takeFault (s : State) (c : FaultCause) (op : Word) (a : Nat) :
    (s.takeFault c op).byteAt a = s.byteAt a := rfl
@[simp] theorem State.byteAt_writeKey (s : State) (k : Nibble) (p : Bool) (a : Nat) :
    (s.writeKey k p).byteAt a = s.byteAt a := rfl
@[simp] theorem State.byteAt_drawRnd (s : State) (a : Nat) : s.drawRnd.2.byteAt a = s.byteAt a := rfl
@[simp] theorem State.byteAt_skipIf (s : State) (c : Bool) (a : Nat) : (s.skipIf c).byteAt a = s.byteAt a :=
  State.byteAt_congr (s.skipIf_mem c) (s.skipIf_font c) a

@[simp] theorem State.readV_storeBytes (s : State) (a : Nat) (vs : List Byte) (r : Nibble) :
    (s.storeBytes a vs).readV r = s.readV r := rfl

end Sys2Proof.Machine
end

