-- ==== Sys2Proof/Laws/Ops.lean ====
section
/-! SUPPORT. For each shared operation, one lemma that says everything it can do, to be cited instead of unfolding
it. -/

namespace Sys2Proof.Machine

/-! ## Ranges and flags -/

theorem inRange_iff (a k : Nat) : inRange a k = true ↔ k = 0 ∨ a + k ≤ 0x1000 := by
  simp only [inRange, decide_eq_true_eq]; omega

@[simp] theorem toNat_flagByte (f : Bool) : (flagByte f).toNat = if f then 1 else 0 := by cases f <;> rfl

@[simp] theorem toNat_zextByte (b : Byte) : (zextByte b).toNat = b.toNat := by
  have := b.isLt
  simp only [zextByte, BitVec.toNat_setWidth]; omega

@[simp] theorem toNat_zextAddr (nnn : Addr) : (zextAddr nnn).toNat = nnn.toNat := by
  have := nnn.isLt
  simp only [zextAddr, BitVec.toNat_setWidth]; omega

@[simp] theorem toNat_zextNibble (k : Nibble) : (zextNibble k).toNat = k.toNat := by
  have := k.isLt
  simp only [zextNibble, BitVec.toNat_setWidth]; omega

theorem isKeyIndex_iff (v : Byte) : isKeyIndex v = true ↔ v.toNat ≤ 15 := by simp [isKeyIndex]

/-! ## The call stack (41_flow R140, R141) -/

/-- A push below the limit: the new entry at the old count, every other entry and every other field as before. -/
theorem State.push_cases {s t : State} {v : Word} (h : s.push v = some t) :
    s.sp.val < 16 ∧ t.sp.val = s.sp.val + 1 ∧
      (∀ k, t.stackEntry k = if k = s.sp.val then v else s.stackEntry k) ∧
      t = { s with stack := t.stack, sp := t.sp } := by
  unfold State.push at h
  split at h
  next hlt =>
    cases h
    refine ⟨hlt, rfl, fun k => ?_, rfl⟩
    by_cases hk : k < 16
    · by_cases e : k = s.sp.val
      · subst e; simp [State.stackEntry, hk]
      · have e' : s.sp.val ≠ k := fun h => e h.symm
        simp [State.stackEntry, hk, e, e']
    · have e : k ≠ s.sp.val := by omega
      simp [State.stackEntry, hk, e]
  next => cases h

/-- A push answers exactly below the limit. -/
theorem State.push_eq_none_iff (s : State) (v : Word) : s.push v = none ↔ s.sp.val = 16 := by
  have := s.sp.isLt
  unfold State.push
  split
  · simp; omega
  · simp; omega

/-- A pop from a stack in use: the newest entry, the count lower by one, every other field as before. -/
theorem State.pop_cases {s t : State} {a : Word} (h : s.pop = some (a, t)) :
    s.sp.val ≠ 0 ∧ a = s.stackEntry (s.sp.val - 1) ∧ t.sp.val = s.sp.val - 1 ∧ t = { s with sp := t.sp } := by
  unfold State.pop at h
  split at h
  · cases h
  next hne => cases h; exact ⟨hne, rfl, rfl, rfl⟩

/-- A pop answers exactly when an entry is in use. -/
theorem State.pop_eq_none_iff (s : State) : s.pop = none ↔ s.sp.val = 0 := by
  unfold State.pop
  split <;> simp_all

/-! ## Register blocks (43_index_memory R194, R195) -/

@[simp] theorem State.length_registerBlock (s : State) (x : Nibble) :
    (s.registerBlock (blockCount x)).length = x.toNat + 1 := by
  have := x.isLt
  simp only [State.registerBlock, blockCount, List.length_take, Vector.length_toList]; omega

/-- Byte `k` of a register block is `V[k]`. -/
theorem State.getD_registerBlock (s : State) (x k : Nibble) (hk : k.toNat ≤ x.toNat) :
    (s.registerBlock (blockCount x)).getD k.toNat 0 = s.readV k := by
  have hl : k.toNat < (s.registerBlock (blockCount x)).length := by rw [State.length_registerBlock]; omega
  rw [List.getD_eq_getElem _ _ hl]
  simp [State.registerBlock, State.readV]

/-- After a block of bytes is put into the registers from `k` up, each register holds its byte, and the others what
they held. -/
theorem getElem_setRegisters (V : Vector Byte 16) (k : Nat) (vs : List Byte) (r : Nat) (hr : r < 16) :
    (setRegisters V k vs)[r] = if k ≤ r ∧ r < k + vs.length then vs.getD (r - k) 0 else V[r] := by
  induction vs generalizing V k with
  | nil => simp [setRegisters]
  | cons v vs ih =>
    rw [setRegisters, ih]
    by_cases h1 : r = k
    · subst h1; simp
    · have h1' : k ≠ r := fun e => h1 e.symm
      by_cases h2 : k + 1 ≤ r ∧ r < k + 1 + vs.length
      · have h3 : k ≤ r ∧ r < k + (v :: vs).length := by simp only [List.length_cons]; omega
        have h4 : r - k = (r - (k + 1)) + 1 := by omega
        rw [if_pos h2, if_pos h3, h4, List.getD_cons_succ]
      · have h3 : ¬ (k ≤ r ∧ r < k + (v :: vs).length) := by simp only [List.length_cons]; omega
        rw [if_neg h2, if_neg h3]
        simp [h1']

/-! ## Fetch (40_step R123) -/

theorem State.fetch_eq (s : State) : s.fetch = if s.pc.toNat ≤ 0xFFE then some s.opcodeAtPc else none := by
  unfold State.fetch State.memRead State.opcodeAtPc
  by_cases h : s.pc.toNat ≤ 0xFFE
  · have h1 : ¬ s.pc.toNat > 0xFFF := by omega
    have h2 : ¬ s.pc.toNat + 1 > 0xFFF := by omega
    simp [h, h1, h2]
  · have h2 : s.pc.toNat + 1 > 0xFFF := by omega
    rw [if_pos h2, if_neg h]
    split
    next h => simp at h
    next => rfl

/-! ## The frame of a step (40_step R120) -/

theorem step_of_faulted {s : State} {r : FaultRecord} (h : s.fault = some r) : step s = .fault (.halted r) := by
  simp [step, cycle, h]

theorem step_of_waiting {s : State} (hf : s.fault = none) (hw : s.awaitingKey = true) : step s = .next s := by
  simp [step, cycle, hf, hw]

theorem step_of_pc_outside {s : State} (hf : s.fault = none) (hw : s.awaitingKey = false)
    (hp : ¬ s.pc.toNat ≤ 0xFFE) : step s = .next (s.takeFault .addressOutOfRange 0) := by
  simp [step, cycle, hf, hw, State.fetch_eq, hp]

theorem step_of_unknown {s : State} {e : DecodeReject} (h : s.ready) (hd : decode s.opcodeAtPc = .error e) :
    step s = .next (s.takeFault .unknownOpcode s.opcodeAtPc) := by
  simp [step, cycle, h.1, h.2.1, State.fetch_eq, h.2.2, hd]

theorem step_of_instr {s : State} {i : Instr} (h : s.ready) (hd : decode s.opcodeAtPc = .ok i) :
    step s = exec i s := by
  simp [step, cycle, h.1, h.2.1, State.fetch_eq, h.2.2, hd]

/-- Everything a step can do. -/
theorem step_cases (s : State) :
    (∃ r, s.fault = some r ∧ step s = .fault (.halted r)) ∨
    (s.fault = none ∧ s.awaitingKey = true ∧ step s = .next s) ∨
    (s.fault = none ∧ s.awaitingKey = false ∧ 0xFFE < s.pc.toNat ∧
      step s = .next (s.takeFault .addressOutOfRange 0)) ∨
    (s.ready ∧ (∃ e, decode s.opcodeAtPc = .error e) ∧
      step s = .next (s.takeFault .unknownOpcode s.opcodeAtPc)) ∨
    (s.ready ∧ ∃ i, decode s.opcodeAtPc = .ok i ∧ step s = exec i s) := by
  rcases hf : s.fault with _ | r
  · cases hw : s.awaitingKey
    · by_cases hp : s.pc.toNat ≤ 0xFFE
      · rcases hd : decode s.opcodeAtPc with e | i
        · exact .inr (.inr (.inr (.inl ⟨⟨hf, hw, hp⟩, ⟨e, rfl⟩, step_of_unknown ⟨hf, hw, hp⟩ hd⟩)))
        · exact .inr (.inr (.inr (.inr ⟨⟨hf, hw, hp⟩, i, rfl, step_of_instr ⟨hf, hw, hp⟩ hd⟩)))
      · exact .inr (.inr (.inl ⟨rfl, rfl, by omega, step_of_pc_outside hf hw hp⟩))
    · exact .inr (.inl ⟨rfl, rfl, step_of_waiting hf hw⟩)
  · exact .inl ⟨r, rfl, step_of_faulted hf⟩

/-! ## Drawing (44_display R212) -/

/-- The pixel where a sprite bit of 1 is drawn is inverted, and no other; none outside the screen. -/
theorem Canvas.pixel_flip (canvas : Canvas) (r c r' c' : Nat) :
    Framebuffer.pixel (canvas.flip r c).fb r' c' =
      (Framebuffer.pixel canvas.fb r' c' ^^ decide (r' = r ∧ c' = c ∧ r ≤ 31 ∧ c ≤ 63)) := by
  unfold Canvas.flip
  split
  next h =>
    obtain ⟨hr, hc⟩ := h
    by_cases hin : r' < 32 ∧ c' < 64
    · by_cases e1 : r' = r
      · subst e1
        by_cases e2 : c' = c
        · subst e2; simp [Framebuffer.pixel, hin, hr, hc]
        · have e2' : c ≠ c' := fun e => e2 e.symm
          simp [Framebuffer.pixel, hin, e2, e2']
      · have e1' : r ≠ r' := fun e => e1 e.symm
        simp [Framebuffer.pixel, hin, e1, e1']
    · have e : ¬ (r' = r ∧ c' = c ∧ r ≤ 31 ∧ c ≤ 63) := by omega
      simp only [Framebuffer.pixel, hin, dif_neg, not_false_eq_true, e, decide_false, Bool.xor_false]
  next h =>
    have e : ¬ (r' = r ∧ c' = c ∧ r ≤ 31 ∧ c ≤ 63) := fun e => h ⟨e.2.2.1, e.2.2.2⟩
    simp [e]

/-- A sprite bit of 1 drawn on a set pixel is a hit. -/
theorem Canvas.hit_flip (canvas : Canvas) (r c : Nat) :
    (canvas.flip r c).hit = (canvas.hit || Framebuffer.pixel canvas.fb r c) := by
  unfold Canvas.flip
  split
  next h =>
    have h' : r < 32 ∧ c < 64 := by omega
    simp [Framebuffer.pixel, h']
  next h =>
    have h' : ¬ (r < 32 ∧ c < 64) := by omega
    simp [Framebuffer.pixel, h']

/-- The bits of one row byte that are drawn, clipped: at row `r`, from bit `j` on, `count` of them. -/
def rowMask (r x0 : Nat) (b : Byte) (j count r' c' : Nat) : Bool :=
  decide (r' = r ∧ r ≤ 31 ∧ c' ≤ 63 ∧ x0 + j ≤ c' ∧ c' < x0 + j + count) && spriteBit b (c' - x0)

theorem Canvas.pixel_drawBits (canvas : Canvas) (r x0 : Nat) (b : Byte) (j count r' c' : Nat) :
    Framebuffer.pixel (canvas.drawBits r x0 b j count).fb r' c' =
      (Framebuffer.pixel canvas.fb r' c' ^^ rowMask r x0 b j count r' c') := by
  induction count generalizing canvas j with
  | zero =>
    have e : ¬ (r' = r ∧ r ≤ 31 ∧ c' ≤ 63 ∧ x0 + j ≤ c' ∧ c' < x0 + j + 0) := by omega
    simp only [Canvas.drawBits, rowMask, e, decide_false, Bool.false_and, Bool.xor_false]
  | succ count ih =>
    rw [Canvas.drawBits, ih]
    by_cases hc : c' = x0 + j
    · subst hc
      have e1 : ¬ (r' = r ∧ r ≤ 31 ∧ x0 + j ≤ 63 ∧ x0 + (j + 1) ≤ x0 + j ∧ x0 + j < x0 + (j + 1) + count) := by omega
      have e2 : x0 + j - x0 = j := by omega
      have e3 : (r' = r ∧ r ≤ 31 ∧ x0 + j ≤ 63 ∧ x0 + j ≤ x0 + j ∧ x0 + j < x0 + j + (count + 1)) ↔
          (r' = r ∧ x0 + j = x0 + j ∧ r ≤ 31 ∧ x0 + j ≤ 63) := by omega
      simp only [rowMask, e1, decide_false, Bool.false_and, Bool.xor_false, e2, e3]
      cases hb : spriteBit b j
      · simp
      · simp [Canvas.pixel_flip]
    · have e1 : ¬ (r' = r ∧ c' = x0 + j ∧ r ≤ 31 ∧ x0 + j ≤ 63) := fun e => hc e.2.1
      have e3 : (r' = r ∧ r ≤ 31 ∧ c' ≤ 63 ∧ x0 + (j + 1) ≤ c' ∧ c' < x0 + (j + 1) + count) ↔
          (r' = r ∧ r ≤ 31 ∧ c' ≤ 63 ∧ x0 + j ≤ c' ∧ c' < x0 + j + (count + 1)) := by omega
      simp only [rowMask, e3]
      congr 1
      split
      · simp only [Canvas.pixel_flip, e1, decide_false, Bool.xor_false]
      · rfl

theorem rowMask_same (r x0 : Nat) (b : Byte) (j count c' : Nat) :
    rowMask r x0 b j count r c' = true ↔
      (r ≤ 31 ∧ c' ≤ 63 ∧ x0 + j ≤ c' ∧ c' < x0 + j + count) ∧ spriteBit b (c' - x0) = true := by
  simp only [rowMask, true_and, Bool.and_eq_true, decide_eq_true_eq]

/-- No pixel outside the screen is set. -/
theorem Framebuffer.pixel_on_screen {fb : Framebuffer} {r c : Nat} (h : Framebuffer.pixel fb r c = true) :
    r < 32 ∧ c < 64 := by
  by_contra hout
  rw [Framebuffer.pixel, dif_neg hout] at h; cases h

/-- A pixel of the same row but another column is not touched by one bit. -/
theorem Canvas.pixel_flip_other (canvas : Canvas) (r c c' : Nat) (h : c' ≠ c) :
    Framebuffer.pixel (canvas.flip r c).fb r c' = Framebuffer.pixel canvas.fb r c' := by
  simp [Canvas.pixel_flip, h]

theorem Canvas.hit_drawBits (canvas : Canvas) (r x0 : Nat) (b : Byte) (j count : Nat) :
    (canvas.drawBits r x0 b j count).hit = true ↔
      canvas.hit = true ∨ ∃ c', rowMask r x0 b j count r c' = true ∧ Framebuffer.pixel canvas.fb r c' = true := by
  induction count generalizing canvas j with
  | zero =>
    simp only [Canvas.drawBits, rowMask_same]
    constructor
    · exact .inl
    · rintro (h | ⟨c', ⟨h, -⟩, -⟩)
      · exact h
      · omega
  | succ count ih =>
    rw [Canvas.drawBits, ih]
    simp only [rowMask_same]
    cases hb : spriteBit b j
    · rw [if_neg Bool.false_ne_true]
      refine or_congr_right (exists_congr fun c' => and_congr_left fun _ => ?_)
      constructor
      · rintro ⟨h, hs⟩; exact ⟨by omega, hs⟩
      · rintro ⟨h, hs⟩
        have hne : c' ≠ x0 + j := by
          rintro rfl
          rw [Nat.add_sub_cancel_left, hb] at hs; cases hs
        exact ⟨by omega, hs⟩
    · rw [if_pos rfl, Canvas.hit_flip, Bool.or_eq_true, or_assoc]
      refine or_congr_right ?_
      constructor
      · rintro (h | ⟨c', h, hp⟩)
        · have hin := Framebuffer.pixel_on_screen h
          exact ⟨x0 + j, ⟨by omega, by rw [Nat.add_sub_cancel_left]; exact hb⟩, h⟩
        · rw [Canvas.pixel_flip_other _ _ _ _ (by omega)] at hp
          exact ⟨c', ⟨by omega, h.2⟩, hp⟩
      · rintro ⟨c', h, hp⟩
        by_cases e : c' = x0 + j
        · subst e; exact .inl hp
        · exact .inr ⟨c', ⟨by omega, h.2⟩, by rw [Canvas.pixel_flip_other _ _ _ _ e]; exact hp⟩

/-- The pixels a sprite draws, clipped at the edges: `rows` from row `y0` and column `x0` (44_display R213). -/
def spriteMask (x0 y0 : Nat) (rows : List Byte) (r c : Nat) : Bool :=
  decide (r ≤ 31 ∧ c ≤ 63 ∧ y0 ≤ r ∧ r < y0 + rows.length ∧ x0 ≤ c ∧ c < x0 + 8) &&
    spriteBit (rows.getD (r - y0) 0) (c - x0)

theorem spriteMask_cons_same (x0 y0 : Nat) (b : Byte) (bs : List Byte) (c : Nat) :
    spriteMask x0 y0 (b :: bs) y0 c = rowMask y0 x0 b 0 8 y0 c := by
  simp [spriteMask, rowMask]

theorem spriteMask_cons_other (x0 y0 : Nat) (b : Byte) (bs : List Byte) (r c : Nat) (h : r ≠ y0) :
    spriteMask x0 y0 (b :: bs) r c = spriteMask x0 (y0 + 1) bs r c := by
  have e : (r ≤ 31 ∧ c ≤ 63 ∧ y0 ≤ r ∧ r < y0 + (b :: bs).length ∧ x0 ≤ c ∧ c < x0 + 8) ↔
      (r ≤ 31 ∧ c ≤ 63 ∧ y0 + 1 ≤ r ∧ r < y0 + 1 + bs.length ∧ x0 ≤ c ∧ c < x0 + 8) := by
    simp only [List.length_cons]; omega
  simp only [spriteMask, e]
  by_cases hr : y0 + 1 ≤ r
  · have e2 : r - y0 = (r - (y0 + 1)) + 1 := by omega
    rw [e2, List.getD_cons_succ]
  · have e3 : ¬ (r ≤ 31 ∧ c ≤ 63 ∧ y0 + 1 ≤ r ∧ r < y0 + 1 + bs.length ∧ x0 ≤ c ∧ c < x0 + 8) := by omega
    simp only [e3, decide_false, Bool.false_and]

theorem spriteMask_above (x0 y0 : Nat) (rows : List Byte) (r c : Nat) (h : r < y0) :
    spriteMask x0 y0 rows r c = false := by
  have e : ¬ (r ≤ 31 ∧ c ≤ 63 ∧ y0 ≤ r ∧ r < y0 + rows.length ∧ x0 ≤ c ∧ c < x0 + 8) := by omega
  simp only [spriteMask, e, decide_false, Bool.false_and]

theorem rowMask_other (r x0 : Nat) (b : Byte) (j count r' c' : Nat) (h : r' ≠ r) :
    rowMask r x0 b j count r' c' = false := by simp [rowMask, h]

/-- Drawing rows inverts exactly the pixels of the clipped sprite. -/
theorem Canvas.pixel_drawRows (canvas : Canvas) (x0 y0 : Nat) (rows : List Byte) (r c : Nat) :
    Framebuffer.pixel (canvas.drawRows x0 y0 rows).fb r c =
      (Framebuffer.pixel canvas.fb r c ^^ spriteMask x0 y0 rows r c) := by
  induction rows generalizing canvas y0 with
  | nil =>
    have e : ¬ (r ≤ 31 ∧ c ≤ 63 ∧ y0 ≤ r ∧ r < y0 + ([] : List Byte).length ∧ x0 ≤ c ∧ c < x0 + 8) := by
      simp only [List.length_nil]; omega
    simp only [Canvas.drawRows, spriteMask, e, decide_false, Bool.false_and, Bool.xor_false]
  | cons b bs ih =>
    rw [Canvas.drawRows, ih, Canvas.pixel_drawBits]
    by_cases h : r = y0
    · subst h
      rw [spriteMask_cons_same, spriteMask_above x0 (r + 1) bs r c (by omega), Bool.xor_false]
    · rw [spriteMask_cons_other _ _ _ _ _ _ h, rowMask_other _ _ _ _ _ _ _ h, Bool.xor_false]

/-- Drawing rows hits exactly when the clipped sprite and the old framebuffer share a set pixel. -/
theorem Canvas.hit_drawRows (canvas : Canvas) (x0 y0 : Nat) (rows : List Byte) :
    (canvas.drawRows x0 y0 rows).hit = true ↔
      canvas.hit = true ∨
        ∃ r c, spriteMask x0 y0 rows r c = true ∧ Framebuffer.pixel canvas.fb r c = true := by
  induction rows generalizing canvas y0 with
  | nil =>
    simp only [Canvas.drawRows]
    constructor
    · exact .inl
    · rintro (h | ⟨r, c, h, -⟩)
      · exact h
      · simp [spriteMask] at h; omega
  | cons b bs ih =>
    rw [Canvas.drawRows, ih, Canvas.hit_drawBits, or_assoc]
    refine or_congr_right ?_
    constructor
    · rintro (⟨c, h, hp⟩ | ⟨r, c, h, hp⟩)
      · exact ⟨y0, c, by rw [spriteMask_cons_same]; exact h, hp⟩
      · have hr : r ≠ y0 := by
          rintro rfl
          rw [spriteMask_above x0 (r + 1) bs r c (by omega)] at h; cases h
        rw [Canvas.pixel_drawBits, rowMask_other _ _ _ _ _ _ _ hr, Bool.xor_false] at hp
        exact ⟨r, c, by rw [spriteMask_cons_other _ _ _ _ _ _ hr]; exact h, hp⟩
    · rintro ⟨r, c, h, hp⟩
      by_cases hr : r = y0
      · subst hr
        rw [spriteMask_cons_same] at h
        exact .inl ⟨c, h, hp⟩
      · rw [spriteMask_cons_other _ _ _ _ _ _ hr] at h
        exact .inr ⟨r, c, h, by rw [Canvas.pixel_drawBits, rowMask_other _ _ _ _ _ _ _ hr, Bool.xor_false]; exact hp⟩

/-- What drawing a sprite does to the pixels (44_display R213 a). -/
theorem pixel_drawSprite (fb : Framebuffer) (x0 y0 : Nat) (rows : List Byte) (r c : Nat) :
    Framebuffer.pixel (drawSprite fb x0 y0 rows).fb r c =
      (Framebuffer.pixel fb r c ^^ spriteMask x0 y0 rows r c) :=
  Canvas.pixel_drawRows ⟨fb, false⟩ x0 y0 rows r c

/-- When drawing a sprite collides (44_display R213 b). -/
theorem hit_drawSprite (fb : Framebuffer) (x0 y0 : Nat) (rows : List Byte) :
    (drawSprite fb x0 y0 rows).hit = true ↔
      ∃ r c, spriteMask x0 y0 rows r c = true ∧ Framebuffer.pixel fb r c = true := by
  rw [drawSprite, Canvas.hit_drawRows]; simp

/-- Framebuffers with the same pixels are equal. -/
theorem Framebuffer.ext_pixel (fb fb' : Framebuffer)
    (h : ∀ r c, Framebuffer.pixel fb r c = Framebuffer.pixel fb' r c) : fb = fb' := by
  apply Vector.ext; intro r hr
  apply Vector.ext; intro c hc
  have := h r c
  simpa [Framebuffer.pixel, hr, hc] using this

@[simp] theorem Framebuffer.pixel_clear (r c : Nat) : Framebuffer.pixel Framebuffer.clear r c = false := by
  simp [Framebuffer.pixel, Framebuffer.clear]

/-! ## The host's operations (60_exceptions R257 to R259, 70_reset R282) -/

/-- A load that answers: the image fits, its bytes stand at 0x200 and up, every other byte and every other field is
as before. -/
theorem load_cases {image : List Byte} {s t : State} (h : load image s = some t) :
    image.length ≤ 3584 ∧
      (∀ a, t.byteAt a = if 0x200 ≤ a ∧ a < 0x200 + image.length then image.getD (a - 0x200) 0 else s.byteAt a) ∧
      t = { s with mem := t.mem } := by
  unfold load at h
  split at h
  next hw =>
    cases h
    exact ⟨by simpa [Image.wellFormed] using hw, fun a => State.byteAt_storeBytes _ _ _ _, rfl⟩
  next => cases h

/-- A load refuses exactly the images that do not fit. -/
theorem load_eq_none_iff (image : List Byte) (s : State) : load image s = none ↔ 3584 < image.length := by
  unfold load Image.wellFormed
  split
  · simp_all
  · simp_all

/-- The delivered key reads as delivered, and every other key as before. -/
theorem keyDown_setKey (index : Nibble) (pressed : Bool) (s : State) (j : Nat) :
    (setKey index pressed s).keyDown j = if j = index.toNat then pressed else s.keyDown j := by
  unfold setKey
  split
  · exact s.keyDown_writeKey index pressed j
  · exact s.keyDown_writeKey index pressed j

@[simp] theorem toNat_countDown (t : Byte) : (countDown t).toNat = t.toNat - 1 := by
  unfold countDown
  split
  · have := t.isLt
    rw [BitVec.toNat_sub]; simp; omega
  · omega

end Sys2Proof.Machine
end

