-- ==== Sys2Proof/Laws/Exec.lean ====
section
/-! SUPPORT. For each instruction with a fault condition: the state it answers where the condition does not hold, and
the fault entry where it holds. Every other arm of `exec` is a next state by definition. -/

namespace Sys2Proof.Machine

/-! ## Control transfer -/

theorem exec_ret_of_pop {s t : State} {a : Word} (h : s.pop = some (a, t)) : exec .ret s = .next (t.jump (a + 2)) := by
  simp only [exec, execRet, h]

theorem exec_ret_of_empty {s : State} (h : s.sp.val = 0) : exec .ret s = raiseFault .stackUnderflow .ret s := by
  simp only [exec, execRet, s.pop_eq_none_iff.2 h]

theorem exec_call_of_push {s t : State} {nnn : Addr} (h : s.push s.pc = some t) :
    exec (.call nnn) s = .next (t.jump (zextAddr nnn)) := by
  simp only [exec, execCall, h]

theorem exec_call_of_full {s : State} {nnn : Addr} (h : s.sp.val = 16) :
    exec (.call nnn) s = raiseFault .stackOverflow (.call nnn) s := by
  simp only [exec, execCall, (s.push_eq_none_iff s.pc).2 h]

/-! ## Index and memory -/

theorem exec_ldB_of_fits {s : State} {x : Nibble} (h : s.I.toNat ≤ 0xFFD) :
    exec (.ldB x) s =
      .next ((s.storeBytes s.I.toNat (bcdDigits (s.readV x))).advance 2) := by
  have hr : inRange s.I.toNat 3 = true := (inRange_iff _ _).2 (by omega)
  simp only [exec, execLdB, State.indexAddr, hr, if_true]

theorem exec_ldB_of_outside {s : State} {x : Nibble} (h : 0xFFD < s.I.toNat) :
    exec (.ldB x) s = raiseFault .addressOutOfRange (.ldB x) s := by
  have hr : ¬ inRange s.I.toNat 3 = true := by rw [inRange_iff]; omega
  simp only [exec, execLdB, State.indexAddr, hr]; rfl

theorem exec_ldMemVx_of_fits {s : State} {x : Nibble} (h : s.I.toNat + x.toNat ≤ 0xFFF) :
    exec (.ldMemVx x) s = .next (State.advance { s.storeBytes s.I.toNat (s.registerBlock (blockCount x)) with
      I := s.I + BitVec.ofNat 16 (blockCount x) } 2) := by
  have hr : inRange s.I.toNat (blockCount x) = true := (inRange_iff _ _).2 (by rw [blockCount]; omega)
  simp only [exec, execLdMemVx, State.indexAddr, hr, if_true]

theorem exec_ldMemVx_of_outside {s : State} {x : Nibble} (h : 0xFFF < s.I.toNat + x.toNat) :
    exec (.ldMemVx x) s = raiseFault .addressOutOfRange (.ldMemVx x) s := by
  have hr : ¬ inRange s.I.toNat (blockCount x) = true := by rw [inRange_iff, blockCount]; omega
  simp only [exec, execLdMemVx, State.indexAddr, hr]; rfl

theorem exec_ldVxMem_of_fits {s : State} {x : Nibble} (h : s.I.toNat + x.toNat ≤ 0xFFF) :
    exec (.ldVxMem x) s = .next (State.advance { s with
      V := setRegisters s.V 0 (s.bytesAt s.I.toNat (blockCount x))
      I := s.I + BitVec.ofNat 16 (blockCount x) } 2) := by
  have hr : inRange s.I.toNat (blockCount x) = true := (inRange_iff _ _).2 (by rw [blockCount]; omega)
  simp only [exec, execLdVxMem, State.indexAddr, hr, if_true]

theorem exec_ldVxMem_of_outside {s : State} {x : Nibble} (h : 0xFFF < s.I.toNat + x.toNat) :
    exec (.ldVxMem x) s = raiseFault .addressOutOfRange (.ldVxMem x) s := by
  have hr : ¬ inRange s.I.toNat (blockCount x) = true := by rw [inRange_iff, blockCount]; omega
  simp only [exec, execLdVxMem, State.indexAddr, hr]; rfl

/-! ## Display -/

/-- The sprite a DRW draws in this state, on this state's screen. -/
def State.drawnCanvas (s : State) (x y n : Nibble) : Canvas :=
  drawSprite s.fb (startColumn (s.readV x)) (startRow (s.readV y)) (s.bytesAt s.I.toNat n.toNat)

theorem exec_drw_of_fits {s : State} {x y n : Nibble} (h : n.toNat = 0 ∨ s.I.toNat + n.toNat ≤ 0x1000) :
    exec (.drw x y n) s = .next ((State.writeFlag { s with fb := (s.drawnCanvas x y n).fb, redraw := true }
      (s.drawnCanvas x y n).hit).advance 2) := by
  have hr : inRange s.I.toNat n.toNat = true := (inRange_iff _ _).2 h
  simp only [exec, execDrw, State.indexAddr, hr, if_true]; rfl

theorem exec_drw_of_outside {s : State} {x y n : Nibble} (hn : n.toNat ≠ 0) (h : 0x1000 < s.I.toNat + n.toNat) :
    exec (.drw x y n) s = raiseFault .addressOutOfRange (.drw x y n) s := by
  have hr : ¬ inRange s.I.toNat n.toNat = true := by rw [inRange_iff]; omega
  simp only [exec, execDrw, State.indexAddr, hr]; rfl

/-! ## Keys -/

theorem exec_skp_of_key {s : State} {x : Nibble} (h : (s.readV x).toNat ≤ 15) :
    exec (.skp x) s = .next (s.skipIf (s.keyDown (s.readV x).toNat)) := by
  simp only [exec, execSkp, (isKeyIndex_iff _).2 h, if_true]

theorem exec_skp_of_outside {s : State} {x : Nibble} (h : 15 < (s.readV x).toNat) :
    exec (.skp x) s = raiseFault .keyIndexOutOfRange (.skp x) s := by
  have hk : ¬ isKeyIndex (s.readV x) = true := by rw [isKeyIndex_iff]; omega
  simp only [exec, execSkp, if_neg hk]

theorem exec_sknp_of_key {s : State} {x : Nibble} (h : (s.readV x).toNat ≤ 15) :
    exec (.sknp x) s = .next (s.skipIf (!s.keyDown (s.readV x).toNat)) := by
  simp only [exec, execSknp, (isKeyIndex_iff _).2 h, if_true]

theorem exec_sknp_of_outside {s : State} {x : Nibble} (h : 15 < (s.readV x).toNat) :
    exec (.sknp x) s = raiseFault .keyIndexOutOfRange (.sknp x) s := by
  have hk : ¬ isKeyIndex (s.readV x) = true := by rw [isKeyIndex_iff]; omega
  simp only [exec, execSknp, if_neg hk]

end Sys2Proof.Machine
end

