-- ==== Sys2Proof/Laws/PerInstr.lean ====
section
/-! SUPPORT. The family OpcodeTableRow: the opcode of each instruction selects the row of the opcode table that has
its mnemonic (30_encoding R91, R100, R101). One lemma per constructor. -/

namespace Sys2Proof.Laws.OpcodeTableRow

/-- The opcode of the instruction selects the row with its mnemonic. -/
def Statement (i : Instr) : Prop :=
  ∃ row ∈ OpcodeTable.rows, row.mnemonic = i.mnemonic ∧ row.selects (encode i) = true

/-! ## One lemma per format and mask -/

theorem maskNNN (top : Nibble) (nnn : Addr) : formatNNN top nnn &&& 0xF000 = formatNNN top 0 := by
  apply BitVec.eq_of_getLsbD_eq; intro i hi
  simp only [BitVec.getLsbD_and, getLsbD_formatNNN]
  interval_cases i <;> simp

theorem maskXNN (top x : Nibble) (nn : Byte) : formatXNN top x nn &&& 0xF000 = formatXNN top 0 0 := by
  apply BitVec.eq_of_getLsbD_eq; intro i hi
  simp only [BitVec.getLsbD_and, getLsbD_formatXNN]
  interval_cases i <;> simp

theorem maskXYN (top x y n : Nibble) : formatXYN top x y n &&& 0xF00F = formatXYN top 0 0 n := by
  apply BitVec.eq_of_getLsbD_eq; intro i hi
  simp only [BitVec.getLsbD_and, getLsbD_formatXYN]
  interval_cases i <;> simp

theorem maskXYN_operand (top x y n : Nibble) : formatXYN top x y n &&& 0xF000 = formatXYN top 0 0 0 := by
  apply BitVec.eq_of_getLsbD_eq; intro i hi
  simp only [BitVec.getLsbD_and, getLsbD_formatXYN]
  interval_cases i <;> simp

theorem maskXLL (top x : Nibble) (ll : Byte) : formatXLL top x ll &&& 0xF0FF = formatXLL top 0 ll := by
  rw [formatXLL_eq, formatXLL_eq]
  apply BitVec.eq_of_getLsbD_eq; intro i hi
  simp only [BitVec.getLsbD_and, getLsbD_formatXNN]
  interval_cases i <;> simp

/-! ## One lemma per constructor -/

theorem cls : Statement .cls :=
  ⟨⟨"CLS", 0x00E0, 0xFFFF⟩, by simp [OpcodeTable.rows, OpcodeTable.lowGroups], rfl, by decide⟩

theorem ret : Statement .ret :=
  ⟨⟨"RET", 0x00EE, 0xFFFF⟩, by simp [OpcodeTable.rows, OpcodeTable.lowGroups], rfl, by decide⟩

theorem jp (nnn : Addr) : Statement (.jp nnn) :=
  ⟨⟨"JP_addr", 0x1000, 0xF000⟩, by simp [OpcodeTable.rows, OpcodeTable.lowGroups], rfl, by
    simp only [OpcodeRow.selects, encode, maskNNN]; decide⟩

theorem call (nnn : Addr) : Statement (.call nnn) :=
  ⟨⟨"CALL_addr", 0x2000, 0xF000⟩, by simp [OpcodeTable.rows, OpcodeTable.lowGroups], rfl, by
    simp only [OpcodeRow.selects, encode, maskNNN]; decide⟩

theorem seByte (x : Nibble) (nn : Byte) : Statement (.seByte x nn) :=
  ⟨⟨"SE_Vx__byte", 0x3000, 0xF000⟩, by simp [OpcodeTable.rows, OpcodeTable.lowGroups], rfl, by
    simp only [OpcodeRow.selects, encode, maskXNN]; decide⟩

theorem sneByte (x : Nibble) (nn : Byte) : Statement (.sneByte x nn) :=
  ⟨⟨"SNE_Vx__byte", 0x4000, 0xF000⟩, by simp [OpcodeTable.rows, OpcodeTable.lowGroups], rfl, by
    simp only [OpcodeRow.selects, encode, maskXNN]; decide⟩

theorem seReg (x : Nibble) (y : Nibble) : Statement (.seReg x y) :=
  ⟨⟨"SE_Vx__Vy", 0x5000, 0xF00F⟩, by simp [OpcodeTable.rows, OpcodeTable.lowGroups], rfl, by
    simp only [OpcodeRow.selects, encode, maskXYN]; decide⟩

theorem ldByte (x : Nibble) (nn : Byte) : Statement (.ldByte x nn) :=
  ⟨⟨"LD_Vx__byte", 0x6000, 0xF000⟩, by simp [OpcodeTable.rows, OpcodeTable.lowGroups], rfl, by
    simp only [OpcodeRow.selects, encode, maskXNN]; decide⟩

theorem addByte (x : Nibble) (nn : Byte) : Statement (.addByte x nn) :=
  ⟨⟨"ADD_Vx__byte", 0x7000, 0xF000⟩, by simp [OpcodeTable.rows, OpcodeTable.lowGroups], rfl, by
    simp only [OpcodeRow.selects, encode, maskXNN]; decide⟩

theorem ldReg (x : Nibble) (y : Nibble) : Statement (.ldReg x y) :=
  ⟨⟨"LD_Vx__Vy", 0x8000, 0xF00F⟩, by simp [OpcodeTable.rows, OpcodeTable.aluGroup], rfl, by
    simp only [OpcodeRow.selects, encode, maskXYN]; decide⟩

theorem orReg (x : Nibble) (y : Nibble) : Statement (.orReg x y) :=
  ⟨⟨"OR_Vx__Vy", 0x8001, 0xF00F⟩, by simp [OpcodeTable.rows, OpcodeTable.aluGroup], rfl, by
    simp only [OpcodeRow.selects, encode, maskXYN]; decide⟩

theorem andReg (x : Nibble) (y : Nibble) : Statement (.andReg x y) :=
  ⟨⟨"AND_Vx__Vy", 0x8002, 0xF00F⟩, by simp [OpcodeTable.rows, OpcodeTable.aluGroup], rfl, by
    simp only [OpcodeRow.selects, encode, maskXYN]; decide⟩

theorem xorReg (x : Nibble) (y : Nibble) : Statement (.xorReg x y) :=
  ⟨⟨"XOR_Vx__Vy", 0x8003, 0xF00F⟩, by simp [OpcodeTable.rows, OpcodeTable.aluGroup], rfl, by
    simp only [OpcodeRow.selects, encode, maskXYN]; decide⟩

theorem addReg (x : Nibble) (y : Nibble) : Statement (.addReg x y) :=
  ⟨⟨"ADD_Vx__Vy", 0x8004, 0xF00F⟩, by simp [OpcodeTable.rows, OpcodeTable.aluGroup], rfl, by
    simp only [OpcodeRow.selects, encode, maskXYN]; decide⟩

theorem subReg (x : Nibble) (y : Nibble) : Statement (.subReg x y) :=
  ⟨⟨"SUB_Vx__Vy", 0x8005, 0xF00F⟩, by simp [OpcodeTable.rows, OpcodeTable.aluGroup], rfl, by
    simp only [OpcodeRow.selects, encode, maskXYN]; decide⟩

theorem shr (x : Nibble) (y : Nibble) : Statement (.shr x y) :=
  ⟨⟨"SHR_Vx", 0x8006, 0xF00F⟩, by simp [OpcodeTable.rows, OpcodeTable.aluGroup], rfl, by
    simp only [OpcodeRow.selects, encode, maskXYN]; decide⟩

theorem subnReg (x : Nibble) (y : Nibble) : Statement (.subnReg x y) :=
  ⟨⟨"SUBN_Vx__Vy", 0x8007, 0xF00F⟩, by simp [OpcodeTable.rows, OpcodeTable.aluGroup], rfl, by
    simp only [OpcodeRow.selects, encode, maskXYN]; decide⟩

theorem shl (x : Nibble) (y : Nibble) : Statement (.shl x y) :=
  ⟨⟨"SHL_Vx", 0x800E, 0xF00F⟩, by simp [OpcodeTable.rows, OpcodeTable.aluGroup], rfl, by
    simp only [OpcodeRow.selects, encode, maskXYN]; decide⟩

theorem sneReg (x : Nibble) (y : Nibble) : Statement (.sneReg x y) :=
  ⟨⟨"SNE_Vx__Vy", 0x9000, 0xF00F⟩, by simp [OpcodeTable.rows, OpcodeTable.highGroups], rfl, by
    simp only [OpcodeRow.selects, encode, maskXYN]; decide⟩

theorem ldI (nnn : Addr) : Statement (.ldI nnn) :=
  ⟨⟨"LD_I__addr", 0xA000, 0xF000⟩, by simp [OpcodeTable.rows, OpcodeTable.highGroups], rfl, by
    simp only [OpcodeRow.selects, encode, maskNNN]; decide⟩

theorem jpV0 (nnn : Addr) : Statement (.jpV0 nnn) :=
  ⟨⟨"JP_V0__addr", 0xB000, 0xF000⟩, by simp [OpcodeTable.rows, OpcodeTable.highGroups], rfl, by
    simp only [OpcodeRow.selects, encode, maskNNN]; decide⟩

theorem rnd (x : Nibble) (nn : Byte) : Statement (.rnd x nn) :=
  ⟨⟨"RND_Vx__byte", 0xC000, 0xF000⟩, by simp [OpcodeTable.rows, OpcodeTable.highGroups], rfl, by
    simp only [OpcodeRow.selects, encode, maskXNN]; decide⟩

theorem drw (x : Nibble) (y : Nibble) (n : Nibble) : Statement (.drw x y n) :=
  ⟨⟨"DRW_Vx__Vy__nibble", 0xD000, 0xF000⟩, by simp [OpcodeTable.rows, OpcodeTable.highGroups], rfl, by
    simp only [OpcodeRow.selects, encode, maskXYN_operand]; decide⟩

theorem skp (x : Nibble) : Statement (.skp x) :=
  ⟨⟨"SKP_Vx", 0xE09E, 0xF0FF⟩, by simp [OpcodeTable.rows, OpcodeTable.highGroups], rfl, by
    simp only [OpcodeRow.selects, encode, maskXLL]; decide⟩

theorem sknp (x : Nibble) : Statement (.sknp x) :=
  ⟨⟨"SKNP_Vx", 0xE0A1, 0xF0FF⟩, by simp [OpcodeTable.rows, OpcodeTable.highGroups], rfl, by
    simp only [OpcodeRow.selects, encode, maskXLL]; decide⟩

theorem ldVxDT (x : Nibble) : Statement (.ldVxDT x) :=
  ⟨⟨"LD_Vx__DT", 0xF007, 0xF0FF⟩, by simp [OpcodeTable.rows, OpcodeTable.miscGroup], rfl, by
    simp only [OpcodeRow.selects, encode, maskXLL]; decide⟩

theorem ldVxK (x : Nibble) : Statement (.ldVxK x) :=
  ⟨⟨"LD_Vx__K", 0xF00A, 0xF0FF⟩, by simp [OpcodeTable.rows, OpcodeTable.miscGroup], rfl, by
    simp only [OpcodeRow.selects, encode, maskXLL]; decide⟩

theorem ldDTVx (x : Nibble) : Statement (.ldDTVx x) :=
  ⟨⟨"LD_DT__Vx", 0xF015, 0xF0FF⟩, by simp [OpcodeTable.rows, OpcodeTable.miscGroup], rfl, by
    simp only [OpcodeRow.selects, encode, maskXLL]; decide⟩

theorem ldSTVx (x : Nibble) : Statement (.ldSTVx x) :=
  ⟨⟨"LD_ST__Vx", 0xF018, 0xF0FF⟩, by simp [OpcodeTable.rows, OpcodeTable.miscGroup], rfl, by
    simp only [OpcodeRow.selects, encode, maskXLL]; decide⟩

theorem addI (x : Nibble) : Statement (.addI x) :=
  ⟨⟨"ADD_I__Vx", 0xF01E, 0xF0FF⟩, by simp [OpcodeTable.rows, OpcodeTable.miscGroup], rfl, by
    simp only [OpcodeRow.selects, encode, maskXLL]; decide⟩

theorem ldF (x : Nibble) : Statement (.ldF x) :=
  ⟨⟨"LD_F__Vx", 0xF029, 0xF0FF⟩, by simp [OpcodeTable.rows, OpcodeTable.miscGroup], rfl, by
    simp only [OpcodeRow.selects, encode, maskXLL]; decide⟩

theorem ldB (x : Nibble) : Statement (.ldB x) :=
  ⟨⟨"LD_B__Vx", 0xF033, 0xF0FF⟩, by simp [OpcodeTable.rows, OpcodeTable.miscGroup], rfl, by
    simp only [OpcodeRow.selects, encode, maskXLL]; decide⟩

theorem ldMemVx (x : Nibble) : Statement (.ldMemVx x) :=
  ⟨⟨"LD__I___Vx", 0xF055, 0xF0FF⟩, by simp [OpcodeTable.rows, OpcodeTable.miscGroup], rfl, by
    simp only [OpcodeRow.selects, encode, maskXLL]; decide⟩

theorem ldVxMem (x : Nibble) : Statement (.ldVxMem x) :=
  ⟨⟨"LD_Vx___I", 0xF065, 0xF0FF⟩, by simp [OpcodeTable.rows, OpcodeTable.miscGroup], rfl, by
    simp only [OpcodeRow.selects, encode, maskXLL]; decide⟩

end Sys2Proof.Laws.OpcodeTableRow
end

