-- ==== Sys2Proof/Tests/Slice0.lean ====
section
/-! SUPPORT. The model's own tests. The expected results are those of spec/95_test_vectors.md (the vector's name stands
at each test) or words written out from 30_encoding R91 and R93 to R97. The last part shows, for each obligation with
hypotheses, a state and operands that meet them. -/

namespace Sys2Proof.Tests

open Machine

/-! ## Building a small state and looking at one step -/

/-- Registers with these values, the others 0. -/
def regs (l : List (Nibble × Byte)) : Vector Byte 16 :=
  l.foldl (fun V p => V.set p.1.toNat p.2 p.1.isLt) (.replicate 16 0)

/-- A screen with these pixels, written `(row, column)`, set. -/
def screen (l : List (Nat × Nat)) : Framebuffer :=
  l.foldl (fun fb p => fb.setIfInBounds p.1 ((fb.getD p.1 (.replicate 64 false)).setIfInBounds p.2 true))
    (.replicate 32 (.replicate 64 false))

/-- The reset state with these registers and the opcode at 0x200. -/
def start (op : Word) (V : List (Nibble × Byte)) : State := State.placeOpcode { State.reset with V := regs V } op

/-- `start` with a value in `I`. -/
def startI (op i : Word) (V : List (Nibble × Byte)) : State := { start op V with I := i }

/-- Does a step answer a next state with this property? -/
def after (s : State) (p : State → Bool) : Bool :=
  match step s with
  | .next t => p t
  | _ => false

/-- Does a step latch this fault and leave `pc` where it was? -/
def faultsWith (s : State) (r : FaultRecord) : Bool := after s fun t => t.fault == some r && t.pc == s.pc

/-- Are exactly these columns set in this row? -/
def rowIs (t : State) (r : Nat) (columns : List Nat) : Bool :=
  (List.range 64).all fun c => t.pixel r c == columns.contains c

/-! ## WellFormed: each check refuses an ill-formed term -/

/-- One word from each of the six unknown sets (vectors DE3, DE5, DE6, DE7, DE8, DE9). -/
theorem test_unknown_opcodes_are_ill_formed :
    [0x0000, 0x5121, 0x8128, 0x9121, 0xE19F, 0xF175].all (fun op => !Opcode.wellFormed op) = true := by decide

/-- The lowest operand that does not fit each width of field, and the highest that does. -/
theorem test_operands_beyond_their_field_are_ill_formed :
    (Operand.wellFormed 4 16 = false ∧ Operand.wellFormed 8 256 = false ∧ Operand.wellFormed 12 4096 = false) ∧
    (Operand.wellFormed 4 15 = true ∧ Operand.wellFormed 8 255 = true ∧ Operand.wellFormed 12 4095 = true) := by decide

/-- Property S1: 3584 bytes fit and 3585 do not. -/
theorem test_image_too_long_is_ill_formed :
    Image.wellFormed (.replicate 3585 0xAA) = false ∧ Image.wellFormed (.replicate 3584 0xAA) = true := by
  simp only [Image.wellFormed, List.length_replicate]
  decide

/-- The fields of `Instr` have their width in their type: no term is ill formed. -/
theorem test_instructions_are_well_formed : (Instr.drw 15 15 15).wellFormed = true ∧
    (Instr.rnd 15 255).wellFormed = true ∧ (Instr.jp 4095).wellFormed = true := by decide

/-! ## Decode: a word for each constructor, written from its encoding -/

theorem test_decode_group_0 : decode 0x00E0 = .ok .cls ∧ decode 0x00EE = .ok .ret ∧
    decode 0x0000 = .error (.unknownOpcode 0x0000) ∧ decode 0x00E1 = .error (.unknownOpcode 0x00E1) ∧
    decode 0x01E0 = .error (.unknownOpcode 0x01E0) ∧ decode 0x0FFF = .error (.unknownOpcode 0x0FFF) := by decide

theorem test_decode_addresses : decode 0x10E0 = .ok (.jp 0x0E0) ∧ decode 0x2ABC = .ok (.call 0xABC) ∧
    decode 0xAFFF = .ok (.ldI 0xFFF) ∧ decode 0xB300 = .ok (.jpV0 0x300) := by decide

theorem test_decode_bytes : decode 0x3144 = .ok (.seByte 1 0x44) ∧ decode 0x4F45 = .ok (.sneByte 0xF 0x45) ∧
    decode 0x61AB = .ok (.ldByte 1 0xAB) ∧ decode 0x72FF = .ok (.addByte 2 0xFF) ∧
    decode 0xC355 = .ok (.rnd 3 0x55) := by decide

theorem test_decode_register_pairs : decode 0x5120 = .ok (.seReg 1 2) ∧ decode 0x9AB0 = .ok (.sneReg 0xA 0xB) ∧
    decode 0x5121 = .error (.unknownOpcode 0x5121) ∧ decode 0x912F = .error (.unknownOpcode 0x912F) ∧
    decode 0xD8A5 = .ok (.drw 8 0xA 5) := by decide

theorem test_decode_group_8 : decode 0x8120 = .ok (.ldReg 1 2) ∧ decode 0x8121 = .ok (.orReg 1 2) ∧
    decode 0x8122 = .ok (.andReg 1 2) ∧ decode 0x8123 = .ok (.xorReg 1 2) ∧ decode 0x8124 = .ok (.addReg 1 2) ∧
    decode 0x8125 = .ok (.subReg 1 2) ∧ decode 0x8126 = .ok (.shr 1 2) ∧ decode 0x8127 = .ok (.subnReg 1 2) ∧
    decode 0x812E = .ok (.shl 1 2) ∧ decode 0x8128 = .error (.unknownOpcode 0x8128) ∧
    decode 0x812F = .error (.unknownOpcode 0x812F) := by decide

theorem test_decode_group_E : decode 0xE19E = .ok (.skp 1) ∧ decode 0xE1A1 = .ok (.sknp 1) ∧
    decode 0xE19F = .error (.unknownOpcode 0xE19F) ∧ decode 0xE100 = .error (.unknownOpcode 0xE100) := by decide

theorem test_decode_group_F : decode 0xF107 = .ok (.ldVxDT 1) ∧ decode 0xF20A = .ok (.ldVxK 2) ∧
    decode 0xF315 = .ok (.ldDTVx 3) ∧ decode 0xF418 = .ok (.ldSTVx 4) ∧ decode 0xF51E = .ok (.addI 5) ∧
    decode 0xF629 = .ok (.ldF 6) ∧ decode 0xF733 = .ok (.ldB 7) ∧ decode 0xF855 = .ok (.ldMemVx 8) ∧
    decode 0xF965 = .ok (.ldVxMem 9) ∧ decode 0xF185 = .error (.unknownOpcode 0xF185) := by decide

/-- Vector DE11: an opcode is stored high byte first; a lone byte is no instruction. -/
theorem test_decode_bytes_in_memory_order : decodeBytes [0x12, 0x34, 0x56] = .ok (.jp 0x234, [0x56]) ∧
    decodeBytes [0x12] = .error .truncated := by decide

theorem test_encode_words : encode (.drw 8 0xA 5) = 0xD8A5 ∧ encode (.shl 1 2) = 0x812E ∧
    encode (.ldVxMem 9) = 0xF965 ∧ encodeBytes (.jp 0x234) = [0x12, 0x34] := by decide

/-- The table numbers bit 0 of an opcode as its least significant bit. -/
theorem test_decodeTableWord : decodeTableWord 16 0x1234 = some (.jp 0x234) ∧ decodeTableWord 16 0xFFFF = none := by
  decide

/-! ## Flow -/

/-- FL7. -/
theorem test_ret : after (State.placeOpcode { State.reset with
      pc := 0x300, sp := 1, stack := State.reset.stack.set 0 0x204 } 0x00EE)
    (fun t => t.pc == 0x206 && t.sp == 0 && t.stackEntry 0 == 0x204) = true := by decide

/-- FL8. -/
theorem test_ret_underflow :
    faultsWith (State.placeOpcode { State.reset with pc := 0x300 } 0x00EE) ⟨.stackUnderflow, 0x300, 0x00EE⟩ = true := by
  decide

/-- FL1. -/
theorem test_jp : after (start 0x1ABC []) (fun t => t.pc == 0xABC) = true := by decide

/-- FL5. -/
theorem test_call : after (State.placeOpcode { State.reset with pc := 0x2F0, sp := 15 } 0x2ABC)
    (fun t => t.pc == 0xABC && t.sp == 16 && t.stackEntry 15 == 0x2F0) = true := by decide

/-- FL6. -/
theorem test_call_overflow :
    faultsWith (State.placeOpcode { State.reset with sp := 16 } 0x2ABC) ⟨.stackOverflow, 0x200, 0x2ABC⟩ = true := by
  decide

/-- FL10, FL11. -/
theorem test_seByte : after (start 0x3144 [(1, 0x44)]) (fun t => t.pc == 0x204) = true ∧
    after (start 0x3144 [(1, 0x45)]) (fun t => t.pc == 0x202) = true := by decide

/-- FL12, FL13. -/
theorem test_sneByte : after (start 0x4144 [(1, 0x44)]) (fun t => t.pc == 0x202) = true ∧
    after (start 0x4144 [(1, 0x45)]) (fun t => t.pc == 0x204) = true := by decide

/-- FL14, FL15. -/
theorem test_seReg : after (start 0x5120 [(1, 7), (2, 7)]) (fun t => t.pc == 0x204) = true ∧
    after (start 0x5120 [(1, 7), (2, 8)]) (fun t => t.pc == 0x202) = true := by decide

/-- FL17, FL18. -/
theorem test_sneReg : after (start 0x9120 [(1, 7), (2, 7)]) (fun t => t.pc == 0x202) = true ∧
    after (start 0x9120 [(1, 7), (2, 8)]) (fun t => t.pc == 0x204) = true := by decide

/-- FL21: no reduction to 12 bits. -/
theorem test_jpV0 : after (start 0xBFFF [(0, 0xFF)]) (fun t => t.pc == 0x10FE) = true := by decide

/-- FL25: a skip past the end of memory does not fault. -/
theorem test_skip_at_the_end_of_memory : after (State.placeOpcode { State.reset with pc := 0xFFE } 0x3000)
    (fun t => t.pc == 0x1002 && t.fault == none) = true := by decide

/-! ## ALU -/

/-- AL1. -/
theorem test_ldByte : after (start 0x61AB []) (fun t => t.readV 1 == 0xAB && t.pc == 0x202) = true := by decide

/-- AL3: a wrap, and no flag. -/
theorem test_addByte : after (start 0x7101 [(1, 0xFF), (0xF, 5)])
    (fun t => t.readV 1 == 0 && t.readV 0xF == 5) = true := by decide

/-- AL7. -/
theorem test_ldReg : after (start 0x8120 [(2, 7), (0xF, 9)]) (fun t => t.readV 1 == 7 && t.readV 0xF == 9) = true := by
  decide

/-- AL9. -/
theorem test_orReg : after (start 0x8121 [(1, 0xF0), (2, 0x0F), (0xF, 1)])
    (fun t => t.readV 1 == 0xFF && t.readV 0xF == 1) = true := by decide

/-- AL10. -/
theorem test_andReg : after (start 0x8122 [(1, 0xFC), (2, 0x3F), (0xF, 1)])
    (fun t => t.readV 1 == 0x3C && t.readV 0xF == 1) = true := by decide

/-- AL11. -/
theorem test_xorReg : after (start 0x8123 [(1, 0xFF), (2, 0x0F), (0xF, 1)])
    (fun t => t.readV 1 == 0xF0 && t.readV 0xF == 1) = true := by decide

/-- S3: 250 + 10. -/
theorem test_addReg : after (start 0x8124 [(1, 0xFA), (2, 0x0A)])
    (fun t => t.readV 1 == 4 && t.readV 0xF == 1) = true := by decide

/-- AL18: the destination is `VF`, which keeps the carry and not the sum. -/
theorem test_addReg_into_the_flag : after (start 0x8F14 [(0xF, 1), (1, 1)]) (fun t => t.readV 0xF == 0) = true := by
  decide

/-- AL24. -/
theorem test_subReg_borrow : after (start 0x8125 [(1, 0x0A), (2, 0x0F)])
    (fun t => t.readV 1 == 0xFB && t.readV 0xF == 0) = true := by decide

/-- AL25: equal operands do not borrow. -/
theorem test_subReg_equal : after (start 0x8125 [(1, 7), (2, 7)])
    (fun t => t.readV 1 == 0 && t.readV 0xF == 1) = true := by decide

/-- AL35. -/
theorem test_shr : after (start 0x8106 [(1, 5)]) (fun t => t.readV 1 == 2 && t.readV 0xF == 1) = true := by decide

/-- AL36: `y` is ignored. -/
theorem test_shr_ignores_y : after (start 0x8126 [(1, 4), (2, 0xFF)])
    (fun t => t.readV 1 == 2 && t.readV 0xF == 0 && t.readV 2 == 0xFF) = true := by decide

/-- AL31. -/
theorem test_subnReg : after (start 0x8127 [(1, 0x0A), (2, 0x0F)])
    (fun t => t.readV 1 == 5 && t.readV 0xF == 1) = true := by decide

/-- AL34: the destination is `VF`. -/
theorem test_subnReg_into_the_flag : after (start 0x8F17 [(0xF, 3), (1, 5)]) (fun t => t.readV 0xF == 1) = true := by
  decide

/-- AL41. -/
theorem test_shl : after (start 0x810E [(1, 0x81)]) (fun t => t.readV 1 == 2 && t.readV 0xF == 1) = true := by decide

/-- AL42: `y` is ignored. -/
theorem test_shl_ignores_y : after (start 0x812E [(1, 0x40), (2, 0xFF)])
    (fun t => t.readV 1 == 0x80 && t.readV 0xF == 0 && t.readV 2 == 0xFF) = true := by decide

/-- AL47 to AL49 for every byte the random source may answer: the mask decides what is left of it. -/
theorem test_rnd (s : State) : ∃ t, exec (.rnd 1 0x00) s = .next t ∧ t.readV 1 = 0 := by
  refine ⟨_, rfl, ?_⟩
  simp [State.readV, State.writeV, State.advance]

/-! ## Index and memory -/

/-- IM2. -/
theorem test_ldI : after (start 0xAFFF []) (fun t => t.I == 0xFFF) = true := by decide

/-- IM5: crossing 0xFFF is not overflow. -/
theorem test_addI : after (startI 0xF11E 0xFFF [(1, 1)]) (fun t => t.I == 0x1000 && t.readV 0xF == 0) = true := by
  decide

/-- IM6. -/
theorem test_addI_carry : after (startI 0xF11E 0xFFFF [(1, 1)]) (fun t => t.I == 0 && t.readV 0xF == 1) = true := by
  decide

/-- IM10, IM12: the whole byte is multiplied. -/
theorem test_ldF : after (start 0xF029 [(0, 0x0A)]) (fun t => t.I == 0x32) = true ∧
    after (start 0xF029 [(0, 0xFF)]) (fun t => t.I == 0x4FB) = true := by decide

/-- Property S2: the glyph of the digit A. -/
theorem test_font_glyph : State.reset.bytesAt 0x32 5 = [0xF0, 0x90, 0xF0, 0x90, 0x90] := by decide

/-- IM18. -/
theorem test_ldB : after (startI 0xF133 0xFFD [(1, 0x7B)])
    (fun t => t.bytesAt 0xFFD 3 == [1, 2, 3] && t.I == 0xFFD) = true := by decide

/-- IM19. -/
theorem test_ldB_outside :
    faultsWith (startI 0xF133 0xFFE [(1, 0x7B)]) ⟨.addressOutOfRange, 0x200, 0xF133⟩ = true := by decide

/-- IM21: `V3` is not stored. -/
theorem test_ldMemVx : after (startI 0xF255 0x300 [(0, 0x11), (1, 0x22), (2, 0x33), (3, 0x44)])
    (fun t => t.bytesAt 0x300 4 == [0x11, 0x22, 0x33, 0x00] && t.I == 0x303) = true := by decide

/-- IM24: nothing is stored when the block does not fit. -/
theorem test_ldMemVx_outside : after (startI 0xF155 0xFFF [(0, 0x11), (1, 0x22)])
    (fun t => t.fault == some ⟨.addressOutOfRange, 0x200, 0xF155⟩ && t.byteAt 0xFFF == 0 && t.I == 0xFFF) = true := by
  decide

/-- IM27: `V3` is not loaded. -/
theorem test_ldVxMem : after (State.placeOpcode { State.reset with
      I := 0x300, V := regs [(3, 0x99)], mem := [(0x300, 1), (0x301, 2), (0x302, 3), (0x303, 4)] } 0xF265)
    (fun t => t.V == regs [(0, 1), (1, 2), (2, 3), (3, 0x99)] && t.I == 0x303) = true := by decide

/-- IM29. -/
theorem test_ldVxMem_outside :
    faultsWith (startI 0xF165 0xFFF []) ⟨.addressOutOfRange, 0x200, 0xF165⟩ = true := by decide

/-! ## Display -/

/-- DR1: both pixels are cleared and `VF` stays. -/
theorem test_cls : after (State.placeOpcode { State.reset with
      fb := screen [(0, 0), (31, 63)], V := regs [(0xF, 1)] } 0x00E0)
    (fun t => !t.pixel 0 0 && !t.pixel 31 63 && t.redraw && t.readV 0xF == 1) = true := by decide

/-- DR12: a collision. -/
theorem test_drw_collision : after (State.placeOpcode { State.reset with
      I := 0x300, mem := [(0x300, 0xC0)], fb := screen [(0, 1), (0, 2)] } 0xD011)
    (fun t => rowIs t 0 [0, 2] && t.readV 0xF == 1 && t.redraw) = true := by decide

/-- DR15: a clipped sprite neither wraps nor collides. -/
theorem test_drw_clips : after (State.placeOpcode { State.reset with
      I := 0x300, mem := [(0x300, 0x0F)], V := regs [(0, 0x3C)], fb := screen [(0, 0)] } 0xD011)
    (fun t => rowIs t 0 [0] && t.readV 0xF == 0) = true := by decide

/-! ## Keys and timers -/

/-- KT1, KT2. -/
theorem test_skp :
    after { start 0xE19E [(1, 7)] with key := (State.reset.writeKey 7 true).key } (fun t => t.pc == 0x204) = true ∧
    after (start 0xE19E [(1, 7)]) (fun t => t.pc == 0x202) = true := by decide

/-- KT4: the index is not reduced to key 0. -/
theorem test_skp_outside : faultsWith { start 0xE19E [(1, 0x10)] with key := (State.reset.writeKey 0 true).key }
    ⟨.keyIndexOutOfRange, 0x200, 0xE19E⟩ = true := by decide

/-- KT6, KT7. -/
theorem test_sknp :
    after { start 0xE1A1 [(1, 7)] with key := (State.reset.writeKey 7 true).key } (fun t => t.pc == 0x202) = true ∧
    after (start 0xE1A1 [(1, 7)]) (fun t => t.pc == 0x204) = true := by decide

/-- KT8. -/
theorem test_sknp_outside :
    faultsWith (start 0xE1A1 [(1, 0x17)]) ⟨.keyIndexOutOfRange, 0x200, 0xE1A1⟩ = true := by decide

/-- KT9. -/
theorem test_ldVxDT : after { start 0xF207 [] with DT := 6 } (fun t => t.readV 2 == 6 && t.DT == 6) = true := by decide

/-- KT15: a held key does not satisfy the wait. -/
theorem test_ldVxK : after { start 0xF10A [] with key := (State.reset.writeKey 5 true).key }
    (fun t => t.awaitingKey && t.keyTarget == 1 && t.pc == 0x202 && t.readV 1 == 0) = true := by decide

/-- KT10. -/
theorem test_ldDTVx : after (start 0xF115 [(1, 7)]) (fun t => t.DT == 7 && t.ST == 0) = true := by decide

/-- KT12. -/
theorem test_ldSTVx : after (start 0xF118 [(1, 0x1E)]) (fun t => t.ST == 0x1E && t.soundActive && t.DT == 0) = true := by
  decide

/-! ## The step and the host's operations -/

/-- HO11: with nothing loaded the first step latches UnknownOpcode. -/
theorem test_step_from_reset :
    faultsWith State.reset ⟨.unknownOpcode, 0x200, 0x0000⟩ = true := by decide

/-- FL3, FL21: a fetch outside memory latches AddressOutOfRange with opcode 0. -/
theorem test_fetch_outside : faultsWith { State.reset with pc := 0xFFF } ⟨.addressOutOfRange, 0xFFF, 0⟩ = true ∧
    faultsWith { State.reset with pc := 0x10FE } ⟨.addressOutOfRange, 0x10FE, 0⟩ = true := by decide

/-- A Faulted core with a running delay timer (HO9). -/
def faulted : State := { State.reset with fault := some ⟨.unknownOpcode, 0x202, 0xFFFF⟩, pc := 0x202, DT := 5 }

/-- HO9. -/
theorem test_faulted_core : (operate .step faulted).2 = .fault ⟨.unknownOpcode, 0x202, 0xFFFF⟩ ∧
    (operate .tickTimers faulted).1.DT = 4 ∧ (operate (.setKey 1 true) faulted).1.keyDown 1 = true := by decide

/-- A core that waits for a key to put into `V1`. -/
def waiting : State := { State.reset with awaitingKey := true, keyTarget := 1, DT := 3, ST := 3, pc := 0x202 }

/-- HO3, HO4. -/
theorem test_waiting_core : (operate .tickTimers waiting).1.DT = 3 ∧
    (operate (.setKey 0xC false) waiting).1.awaitingKey = true ∧ after waiting (fun t => t.pc == 0x202) = true := by decide

/-- HO5, HO7. -/
theorem test_press_ends_the_wait : (operate (.setKey 0xC true) waiting).1.readV 1 = 0x0C ∧
    (operate (.setKey 0xC true) waiting).1.awaitingKey = false ∧
    (operate (.setKey 0xC true) waiting).1.keyDown 0xC = true := by decide

/-- HO1, HO2. -/
theorem test_tickTimers : (tickTimers { State.reset with DT := 1 }).DT = 0 ∧
    (tickTimers { State.reset with DT := 1 }).ST = 0 ∧ (tickTimers { State.reset with DT := 0xFF, ST := 2 }).DT = 0xFE ∧
    (tickTimers { State.reset with DT := 0xFF, ST := 2 }).ST = 1 := by decide

/-- HO8. -/
theorem test_ackRedraw : (ackRedraw { State.reset with redraw := true }).redraw = false := by decide

/-- HO12: a load of one byte. -/
theorem test_load_one_byte : (operate (.load [0x60]) State.reset).1.byteAt 0x200 = 0x60 ∧
    (operate (.load [0x60]) State.reset).1.byteAt 0x201 = 0 ∧
    (operate (.load [0x60]) State.reset).2 = .ok := by decide

/-- HO10: `reset` leaves Faulted. -/
theorem test_reset_leaves_faulted : (reset faulted).fault = none ∧ (reset faulted).pc = 0x200 := by decide

/-- A machine with another `FONT`: its reset memory holds that font, a glyph stored as it is at reset takes no entry,
and `reset` restores it. -/
theorem test_another_font :
    let s := State.resetWith (.replicate 80 0x3C)
    s.byteAt 0x4F = 0x3C ∧ s.byteAt 0x50 = 0 ∧ (s.storeBytes 0 [0x3C]).mem = [] ∧
      (reset (s.storeBytes 0 [0xF0])).byteAt 0 = 0x3C := by decide

/-- Writing the byte an address reads at reset takes it out of the list: equal memories are equal lists. -/
theorem test_memory_is_canonical : Memory.write defaultFont (Memory.write defaultFont [] 0x300 7) 0x300 0 = [] ∧
    Memory.write defaultFont (Memory.write defaultFont [] 0 7) 0 0xF0 = [] ∧
    Memory.write defaultFont (Memory.write defaultFont [] 0x300 7) 0x2FF 8 = [(0x2FF, 8), (0x300, 7)] := by decide

/-- The instruction placed for the next step is the one it runs. -/
theorem test_withFetchWord : after (faulted.withFetchWord 16 0x61AB)
    (fun t => t.readV 1 == 0xAB && t.fault == none && t.pc == 0x204) = true := by decide

/-! ## Witnesses: the hypotheses of each obligation are met -/

/-- A RUNNING core in the middle of a program: two calls deep, registers, `I` and memory in use, `pc` at the last
address an instruction can be fetched from (0xFFE), where a `CALL 0ABC` stands. -/
def busy : State := State.placeOpcode { State.reset with
  V := regs [(0, 0x12), (1, 0x34), (2, 0xFF), (3, 15), (4, 16)]
  stack := (State.reset.stack.set 0 0x204).set 1 0xFFE
  sp := 2
  I := 0x300
  pc := 0xFFE
  DT := 9
  ST := 1 } 0x2ABC

/-- EncodeOfDecodeIsIdentity, at a shift whose `y` is not 0. -/
theorem witness_EncodeOfDecodeIsIdentity : decode 0x81F6 = .ok (.shr 1 0xF) ∧ encode (.shr 1 0xF) = 0x81F6 := by decide

/-- DecoderAgreesWithOpcodeTable: an opcode that selects a row. -/
theorem witness_DecoderAgreesWithOpcodeTable :
    ⟨"SKP_Vx", 0xE09E, 0xF0FF⟩ ∈ OpcodeTable.rows ∧ (0xE39E : Word) &&& 0xF0FF = 0xE09E ∧
      decode 0xE39E = .ok (.skp 3) := by decide

/-- UnknownOpcodesAreTheSixSets: a word of each set. -/
theorem witness_UnknownOpcodesAreTheSixSets :
    decode 0x00E1 = .error (.unknownOpcode 0x00E1) ∧ decode 0x512F = .error (.unknownOpcode 0x512F) ∧
    decode 0x8008 = .error (.unknownOpcode 0x8008) ∧ decode 0x9001 = .error (.unknownOpcode 0x9001) ∧
    decode 0xEFA2 = .error (.unknownOpcode 0xEFA2) ∧ decode 0xF066 = .error (.unknownOpcode 0xF066) := by decide

/-- StepRunsDecodedInstruction and FetchReadsTwoBytesOrFaults (first clause), at `pc` 0xFFE. -/
theorem witness_StepRunsDecodedInstruction :
    busy.fault = none ∧ busy.awaitingKey = false ∧ busy.pc.toNat ≤ 0xFFE ∧ busy.pc.toNat = 0xFFE ∧
    decode (BitVec.ofNat 16 (256 * (busy.byteAt busy.pc.toNat).toNat + (busy.byteAt (busy.pc.toNat + 1)).toNat)) =
      .ok (.call 0xABC) := by decide

/-- FetchReadsTwoBytesOrFaults (second clause), at `pc` 0xFFF. -/
theorem witness_FetchReadsTwoBytesOrFaults :
    let s : State := { busy with pc := 0xFFF }
    s.fault = none ∧ s.awaitingKey = false ∧ 0xFFE < s.pc.toNat := by decide

/-- FaultedStepChangesNothing and FaultIsLatchedUntilReset (a Faulted core that does not wait, a tick). -/
theorem witness_FaultedStepChangesNothing :
    faulted.fault = some ⟨.unknownOpcode, 0x202, 0xFFFF⟩ ∧ ¬ (faulted.awaitingKey = true ∧ faulted.fault.isSome = true) ∧
      Operation.tickTimers ≠ .reset := by decide

/-- WaitingStepChangesNothing and WaitFreezesTheCore. -/
theorem witness_WaitingStepChangesNothing : waiting.fault = none ∧ waiting.awaitingKey = true ∧
    (operate (.setKey 0xF true) waiting).1.awaitingKey = false := by decide

/-- UnknownOpcodeIsLatched: the word 0x0000 at 0x200. -/
theorem witness_UnknownOpcodeIsLatched :
    let s := State.reset
    let op : Word := 0x0000
    s.fault = none ∧ s.awaitingKey = false ∧ s.pc.toNat ≤ 0xFFE ∧ s.byteAt s.pc.toNat = op.extractLsb' 8 8 ∧
      s.byteAt (s.pc.toNat + 1) = op.extractLsb' 0 8 ∧ decode op = .error (.unknownOpcode op) := by decide

/-- FaultsArePrecise: a step that latches a fault raised by an instruction. -/
theorem witness_FaultsArePrecise :
    let s : State := { busy with sp := 16 }
    let r : FaultRecord := ⟨.stackOverflow, 0xFFE, 0x2ABC⟩
    s.fault = none ∧ step s = .next { s with fault := some r } := by
  exact ⟨rfl, rfl⟩

/-- StepAnswersUnlessFaulted. -/
theorem witness_StepAnswersUnlessFaulted :
    busy.fault = none ∧ step faulted = .fault (.halted ⟨.unknownOpcode, 0x202, 0xFFFF⟩) :=
  ⟨rfl, rfl⟩

/-- InstructionsFaultExactlyWhenTheirConditionHolds, PcAfterEachInstruction and InstructionsWriteOnlyWhatTheTableLists:
for each condition, a state just inside it and one just outside. -/
theorem witness_PcAfterEachInstruction :
    (Instr.faults .ret { busy with sp := 0 } = some .stackUnderflow ∧ Instr.faults .ret { busy with sp := 1 } = none) ∧
    (Instr.faults (.call 0) { busy with sp := 16 } = some .stackOverflow ∧
      Instr.faults (.call 0) { busy with sp := 15 } = none) ∧
    (Instr.faults (.drw 0 1 2) { busy with I := 0xFFF } = some .addressOutOfRange ∧
      Instr.faults (.drw 0 1 1) { busy with I := 0xFFF } = none ∧
      Instr.faults (.drw 0 1 0) { busy with I := 0xFFFF } = none) ∧
    (Instr.faults (.ldB 0) { busy with I := 0xFFE } = some .addressOutOfRange ∧
      Instr.faults (.ldB 0) { busy with I := 0xFFD } = none) ∧
    (Instr.faults (.ldMemVx 15) { busy with I := 0xFF1 } = some .addressOutOfRange ∧
      Instr.faults (.ldVxMem 15) { busy with I := 0xFF0 } = none) ∧
    (Instr.faults (.skp 4) busy = some .keyIndexOutOfRange ∧ Instr.faults (.sknp 3) busy = none) := by decide

/-- InstructionsFaultExactlyWhenTheirConditionHolds: an instruction that answers with a fault and one without. -/
theorem witness_InstructionsFaultExactly :
    exec (.skp 4) busy = .next { busy with fault := some ⟨.keyIndexOutOfRange, 0xFFE, 0xE49E⟩ } ∧
    exec (.jp 0x300) busy = .next { busy with pc := 0x300 } :=
  ⟨rfl, rfl⟩

/-- ReturnPopsTheNewestEntry: an entry in use at the least and at the greatest count; an empty stack. -/
theorem witness_ReturnPopsTheNewestEntry : { busy with sp := 1 }.sp.val ≠ 0 ∧ { busy with sp := 16 }.sp.val ≠ 0 ∧
    State.reset.sp.val = 0 := by decide

/-- CallPushesItsOwnAddress: room at the least and at the greatest count; a full stack. -/
theorem witness_CallPushesItsOwnAddress : State.reset.sp.val < 16 ∧ { busy with sp := 15 }.sp.val < 16 ∧
    { busy with sp := 16 }.sp.val = 16 := by decide

/-- ReturnUndoesCall: the called state itself. -/
theorem witness_ReturnUndoesCall : ∃ t, busy.sp.val < 16 ∧ exec (.call 0x300) busy = .next t ∧ t.stack = t.stack :=
  ⟨_, by decide, rfl, rfl⟩

/-- AddWritesSumThenCarry, SubtractionsWriteDifferenceThenNoBorrow, ShiftsWriteResultThenBitShiftedOut: a destination
that is not `VF`, and sums, operands and bits on both sides of each flag. -/
theorem witness_AddWritesSumThenCarry : (1 : Nibble) ≠ 0xF ∧
    255 < (busy.readV 2).toNat + (busy.readV 1).toNat ∧ ¬ 255 < (busy.readV 0).toNat + (busy.readV 1).toNat ∧
    (busy.readV 1).toNat ≤ (busy.readV 2).toNat ∧ ¬ (busy.readV 2).toNat ≤ (busy.readV 1).toNat := by decide

/-- FlagInstructionsLeaveZeroOrOne: an instruction of each clause. -/
theorem witness_FlagInstructionsLeaveZeroOrOne :
    (Instr.faults (.addReg 0xF 2) busy = none ∧ (Instr.addReg 0xF 2).writesFlag = true ∧
      ∃ t, exec (.addReg 0xF 2) busy = .next t) ∧
    (Instr.faults (.ldByte 0xE 1) busy = none ∧ (Instr.ldByte 0xE 1).writesFlag = false ∧ (0xE : Nibble) ≠ 0xF ∧
      ∃ t, exec (.ldByte 0xE 1) busy = .next t) :=
  ⟨⟨rfl, rfl, _, rfl⟩, rfl, rfl, by decide, _, rfl⟩

/-- FontInstructionFindsTheGlyph: the digit F, and memory that still holds the font. -/
theorem witness_FontInstructionFindsTheGlyph :
    let s : State := { State.reset with V := regs [(3, 15)] }
    (s.readV 3).toNat ≤ 15 ∧ ∀ a, a ≤ 0x4F → s.byteAt a = fontByte s.font a :=
  ⟨by decide, fun a ha => (State.byteAt_resetWith defaultFont a).trans (if_pos ha)⟩

/-- BcdStoresThreeDigits: the last `I` at which the digits fit, and the first at which they do not. -/
theorem witness_BcdStoresThreeDigits :
    { busy with I := 0xFFD }.I.toNat ≤ 0xFFD ∧ 0xFFD < { busy with I := 0xFFE }.I.toNat := by
  decide

/-- DumpStoresRegisterBlock, LoadFillsRegisterBlock, DumpThenLoadRestoresRegisters: the last `I` at which 16 registers
fit, and the first at which they do not; the state after the dump itself, `I` set back. -/
theorem witness_DumpStoresRegisterBlock :
    { busy with I := 0xFF0 }.I.toNat + (15 : Nibble).toNat ≤ 0xFFF ∧
    0xFFF < { busy with I := 0xFF1 }.I.toNat + (15 : Nibble).toNat ∧
    ∃ t, exec (.ldMemVx 15) { busy with I := 0xFF0 } = .next t ∧ ∀ a, { t with I := 0xFF0 }.byteAt a = t.byteAt a :=
  ⟨by decide, by decide, _, rfl, fun _ => rfl⟩

/-- StoreIsSeenByNextFetch, at the last `pc` it allows (0xFFC). -/
theorem witness_StoreIsSeenByNextFetch :
    let s : State := { busy with pc := 0xFFC, I := 0xFFE }
    1 ≤ (1 : Nibble).toNat ∧ s.I.toNat + (1 : Nibble).toNat ≤ 0xFFF ∧ s.pc.toNat ≤ 0xFFC ∧ s.I = s.pc + 2 ∧
      ∃ t, exec (.ldMemVx 1) s = .next t :=
  ⟨by decide, by decide, by decide, rfl, _, rfl⟩

/-- DrawXorsTheClippedSprite, DrawingTwiceRestoresTheScreen, DrawingStaysInItsRectangle: a sprite that just fits, an
empty one at the highest `I`, one that does not fit; and a column outside the rectangle. -/
theorem witness_DrawXorsTheClippedSprite :
    ({ busy with I := 0xFF1 }.I.toNat + (15 : Nibble).toNat - 1 ≤ 0xFFF) ∧ ((0 : Nibble) = 0) ∧
    ((15 : Nibble) ≠ 0 ∧ 0xFFF < { busy with I := 0xFF2 }.I.toNat + (15 : Nibble).toNat - 1) ∧
    (∃ t, exec (.drw 0 1 0) { busy with I := 0xFFFF } = .next t) ∧
    (∃ t, exec (.drw 0 1 1) busy = .next t) ∧ 0 < (busy.readV 0).toNat % 64 :=
  ⟨by decide, rfl, by decide, ⟨_, exec_drw_of_fits (by decide)⟩, ⟨_, exec_drw_of_fits (by decide)⟩, by decide⟩

/-- DrawXorsTheClippedSprite: a sprite bit that meets a set pixel (DR12). -/
theorem witness_DrawXorsTheClippedSprite_collision :
    let s : State := { State.reset with I := 0x300, mem := [(0x300, 0xC0)], fb := screen [(0, 1)] }
    s.pixel 0 1 = true ∧ (s.byteAt 0x300).getLsbD (7 - (1 - 0)) = true := by decide

/-- KeySkipsTestTheLatch: the greatest key index, and the least value that is none. -/
theorem witness_KeySkipsTestTheLatch :
    (busy.readV 3).toNat ≤ 15 ∧ (busy.readV 3).toNat = 15 ∧ 15 < (busy.readV 4).toNat := by
  decide

/-- KeyWaitBeginsAndEnds, SetKeyWritesTheLatch, TickTimersCountsDown, SoundOutputFollowsTheTimer: a core that waits
and one that does not. -/
theorem witness_SetKeyWritesTheLatch : (true = true ∧ waiting.awaitingKey = true) ∧
    ¬ (true = true ∧ busy.awaitingKey = true) ∧ busy.awaitingKey = false ∧ busy.fault = none := by decide

/-- LoadCopiesTheImage and LaunchStateRunsTheImage: an image that fits exactly, with an instruction first, and one that
does not fit. -/
theorem witness_LoadCopiesTheImage :
    (encodeBytes (.jp 0x200) ++ List.replicate 3582 0xAA).length ≤ 3584 ∧
    3584 < (List.replicate 3585 (0xAA : Byte)).length ∧
    ∃ s, load (encodeBytes (.jp 0x200) ++ [0xAA]) State.reset = some s := by
  refine ⟨?_, ?_, _, rfl⟩
  · simp only [List.length_append, List.length_replicate]; decide
  · simp only [List.length_replicate]; decide

/-- StepKeepsInvariant, OperationsKeepInvariant: a state in use meets the invariant, and it steps. -/
theorem witness_StepKeepsInvariant : busy.Inv ∧ ∃ t, step busy = .next t := by
  refine ⟨⟨by decide, ?_, ?_, ?_, ?_⟩, _, rfl⟩
  · unfold State.noFaultWhileWaiting; decide
  · unfold State.stackHoldsCalls; decide
  · unfold State.pcBounded; decide
  · intro r h; cases h

/-- OperationsKeepInvariant: a Faulted core and a waiting core meet the invariant too. -/
theorem witness_OperationsKeepInvariant : faulted.Inv ∧ waiting.Inv := by
  refine ⟨⟨by decide, ?_, ?_, ?_, ?_⟩, by decide, ?_, ?_, ?_, ?_⟩
  · unfold State.noFaultWhileWaiting; decide
  · unfold State.stackHoldsCalls; decide
  · unfold State.pcBounded; decide
  · intro r h; cases h; rfl
  · unfold State.noFaultWhileWaiting; decide
  · unfold State.stackHoldsCalls; decide
  · unfold State.pcBounded; decide
  · intro r h; cases h

/-- ControlStatesChangeOnlyAsStated: each of the four transitions happens. -/
theorem witness_ControlStatesChangeOnlyAsStated :
    (faulted.control = .faulted ∧ (operate .reset faulted).1.control = .running) ∧
    (busy.control = .running ∧ (operate .step (start 0xF10A [])).1.control = .awaitingKey) ∧
    (waiting.control = .awaitingKey ∧ (operate (.setKey 3 true) waiting).1.control = .running) ∧
    (State.reset.control = .running ∧ (operate .step State.reset).1.control = .faulted) := by decide

/-- RedrawAndSoundTimerAreNotRead. -/
theorem witness_RedrawAndSoundTimerAreNotRead : ∃ t, step busy = .next t := ⟨_, rfl⟩

/-- SelfJumpIsAFixedPoint, at the last address an instruction can be fetched from. -/
theorem witness_SelfJumpIsAFixedPoint :
    let s := State.placeOpcode { State.reset with pc := 0xFFE } 0x1FFE
    s.fault = none ∧ s.awaitingKey = false ∧ s.pc.toNat = (0xFFE : Addr).toNat ∧ (0xFFE : Addr).toNat ≤ 0xFFE ∧
      s.byteAt 0xFFE = (0x1#4 ++ (0xFFE : Addr) : Word).extractLsb' 8 8 ∧
      s.byteAt 0xFFF = (0x1#4 ++ (0xFFE : Addr) : Word).extractLsb' 0 8 := by decide

end Sys2Proof.Tests
end

section
/-! PROOFS. Every instruction answers a next state, `Instr.after`: the fault entry where its fault condition holds, and
its own effect where it does not. -/

namespace Sys2Proof

open Machine

/-! ## The next state of an instruction -/

/-- The state an instruction leaves the host with (40_step R127). -/
def Instr.after (i : Instr) (s : State) : State := (settle s (exec i s)).1

theorem Instr.after_of_exec {i : Instr} {s t : State} (h : exec i s = .next t) : i.after s = t := by
  rw [Instr.after, h]; rfl

theorem exec_eq_next_after (i : Instr) (s : State) : exec i s = .next (i.after s) := by
  cases i
  case ret => show execRet s = .next (settle s (execRet s)).1; unfold execRet; split <;> rfl
  case call nnn => show execCall nnn s = .next (settle s (execCall nnn s)).1; unfold execCall; split <;> rfl
  case drw x y n => show execDrw x y n s = .next (settle s (execDrw x y n s)).1; unfold execDrw; split <;> rfl
  case ldB x => show execLdB x s = .next (settle s (execLdB x s)).1; unfold execLdB; split <;> rfl
  case ldMemVx x => show execLdMemVx x s = .next (settle s (execLdMemVx x s)).1; unfold execLdMemVx; split <;> rfl
  case ldVxMem x => show execLdVxMem x s = .next (settle s (execLdVxMem x s)).1; unfold execLdVxMem; split <;> rfl
  case skp x => show execSkp x s = .next (settle s (execSkp x s)).1; unfold execSkp; split <;> rfl
  case sknp x => show execSknp x s = .next (settle s (execSknp x s)).1; unfold execSknp; split <;> rfl
  all_goals rfl

/-- Where its fault condition holds, an instruction takes the fault entry (60_exceptions R240, R247). -/
theorem Instr.after_of_faults {i : Instr} {s : State} {c : FaultCause} (h : i.faults s = some c) :
    i.after s = s.takeFault c (encode i) := by
  apply Instr.after_of_exec
  cases i
  case ret =>
    obtain ⟨he, rfl⟩ : s.sp.val = 0 ∧ FaultCause.stackUnderflow = c := by simpa [Instr.faults] using h
    exact exec_ret_of_empty he
  case call =>
    obtain ⟨hf, rfl⟩ : s.sp.val = 16 ∧ FaultCause.stackOverflow = c := by simpa [Instr.faults] using h
    exact exec_call_of_full hf
  case drw x y n =>
    obtain ⟨ho, rfl⟩ : (0xFFF < s.I.toNat + n.toNat - 1 ∧ n.toNat ≠ 0) ∧ FaultCause.addressOutOfRange = c := by
      simpa only [Instr.faults, Option.ite_none_right_eq_some, Option.some.injEq] using h
    exact exec_drw_of_outside ho.2 (by omega)
  case ldB =>
    obtain ⟨ho, rfl⟩ : 0xFFD < s.I.toNat ∧ FaultCause.addressOutOfRange = c := by simpa [Instr.faults] using h
    exact exec_ldB_of_outside ho
  case ldMemVx x =>
    obtain ⟨ho, rfl⟩ : 0xFFF < s.I.toNat + x.toNat ∧ FaultCause.addressOutOfRange = c := by
      simpa [Instr.faults] using h
    exact exec_ldMemVx_of_outside ho
  case ldVxMem x =>
    obtain ⟨ho, rfl⟩ : 0xFFF < s.I.toNat + x.toNat ∧ FaultCause.addressOutOfRange = c := by
      simpa [Instr.faults] using h
    exact exec_ldVxMem_of_outside ho
  case skp x =>
    obtain ⟨ho, rfl⟩ : 15 < (s.readV x).toNat ∧ FaultCause.keyIndexOutOfRange = c := by simpa [Instr.faults] using h
    exact exec_skp_of_outside ho
  case sknp x =>
    obtain ⟨ho, rfl⟩ : 15 < (s.readV x).toNat ∧ FaultCause.keyIndexOutOfRange = c := by simpa [Instr.faults] using h
    exact exec_sknp_of_outside ho
  all_goals cases h

/-! ## The effect of each instruction that can fault, where it does not -/

theorem Instr.after_ret {s : State} (h : Instr.ret.faults s = none) :
    Instr.ret.after s =
      State.jump { s with sp := ⟨s.sp.val - 1, Nat.lt_of_le_of_lt (Nat.sub_le _ _) s.sp.isLt⟩ }
        (s.stackEntry (s.sp.val - 1) + 2) := by
  have hne : s.sp.val ≠ 0 := by simpa [Instr.faults] using h
  exact Instr.after_of_exec (exec_ret_of_pop (if_neg hne))

theorem Instr.sp_lt_of_call_completes {nnn : Addr} {s : State} (h : (Instr.call nnn).faults s = none) :
    s.sp.val < 16 := by
  have hne : s.sp.val ≠ 16 := by simpa [Instr.faults] using h
  have := s.sp.isLt
  omega

theorem Instr.after_call {nnn : Addr} {s : State} (h : (Instr.call nnn).faults s = none) :
    (Instr.call nnn).after s =
      State.jump { s with
        stack := s.stack.set s.sp.val s.pc (Instr.sp_lt_of_call_completes h)
        sp := ⟨s.sp.val + 1, Nat.succ_lt_succ (Instr.sp_lt_of_call_completes h)⟩ } (zextAddr nnn) :=
  Instr.after_of_exec (exec_call_of_push (dif_pos (Instr.sp_lt_of_call_completes h)))

/-- The one entry a CALL writes is the one at the old count, and it takes the address of the CALL (41_flow R144). -/
theorem Instr.stackEntry_after_call {nnn : Addr} {s : State} (h : (Instr.call nnn).faults s = none) (k : Nat) :
    ((Instr.call nnn).after s).stackEntry k = if k = s.sp.val then s.pc else s.stackEntry k := by
  obtain ⟨-, -, hentry, -⟩ := State.push_cases (dif_pos (Instr.sp_lt_of_call_completes h) : s.push s.pc = _)
  rw [Instr.after_call h]
  exact hentry k

theorem Instr.after_drw {x y n : Nibble} {s : State} (h : (Instr.drw x y n).faults s = none) :
    (Instr.drw x y n).after s =
      (State.writeFlag { s with fb := (s.drawnCanvas x y n).fb, redraw := true }
        (s.drawnCanvas x y n).hit).advance 2 := by
  have hfit : ¬ (0xFFF < s.I.toNat + n.toNat - 1 ∧ n.toNat ≠ 0) := by simpa [Instr.faults] using h
  exact Instr.after_of_exec (exec_drw_of_fits (by omega))

theorem Instr.index_le_of_ldB_completes {x : Nibble} {s : State} (h : (Instr.ldB x).faults s = none) :
    s.I.toNat ≤ 0xFFD := by
  simpa [Instr.faults] using h

theorem Instr.after_ldB {x : Nibble} {s : State} (h : (Instr.ldB x).faults s = none) :
    (Instr.ldB x).after s = (s.storeBytes s.I.toNat (bcdDigits (s.readV x))).advance 2 :=
  Instr.after_of_exec (exec_ldB_of_fits (Instr.index_le_of_ldB_completes h))

theorem Instr.index_le_of_ldMemVx_completes {x : Nibble} {s : State} (h : (Instr.ldMemVx x).faults s = none) :
    s.I.toNat + x.toNat ≤ 0xFFF := by
  simpa [Instr.faults] using h

theorem Instr.after_ldMemVx {x : Nibble} {s : State} (h : (Instr.ldMemVx x).faults s = none) :
    (Instr.ldMemVx x).after s =
      State.advance { s.storeBytes s.I.toNat (s.registerBlock (blockCount x)) with
        I := s.I + BitVec.ofNat 16 (blockCount x) } 2 :=
  Instr.after_of_exec (exec_ldMemVx_of_fits (Instr.index_le_of_ldMemVx_completes h))

theorem Instr.after_ldVxMem {x : Nibble} {s : State} (h : (Instr.ldVxMem x).faults s = none) :
    (Instr.ldVxMem x).after s =
      State.advance { s with
        V := setRegisters s.V 0 (s.bytesAt s.I.toNat (blockCount x))
        I := s.I + BitVec.ofNat 16 (blockCount x) } 2 := by
  have hfit : s.I.toNat + x.toNat ≤ 0xFFF := by simpa [Instr.faults] using h
  exact Instr.after_of_exec (exec_ldVxMem_of_fits hfit)

theorem Instr.after_skp {x : Nibble} {s : State} (h : (Instr.skp x).faults s = none) :
    (Instr.skp x).after s = s.skipIf (s.keyDown (s.readV x).toNat) := by
  have hkey : (s.readV x).toNat ≤ 15 := by simpa [Instr.faults] using h
  exact Instr.after_of_exec (exec_skp_of_key hkey)

theorem Instr.after_sknp {x : Nibble} {s : State} (h : (Instr.sknp x).faults s = none) :
    (Instr.sknp x).after s = s.skipIf (!s.keyDown (s.readV x).toNat) := by
  have hkey : (s.readV x).toNat ≤ 15 := by simpa [Instr.faults] using h
  exact Instr.after_of_exec (exec_sknp_of_key hkey)

end Sys2Proof
end

section
/-! PROOFS. A calculus of frames: `unchangedBut es s t` is `sameBut es s t` with the fields themselves equal, one rule
for each operation on the state, and with them the frame of every instruction (10_state R37). -/

namespace Sys2Proof.Machine

/-! ## The frame relation -/

/-- The field of the element is the same in both states. `Element.same` compares what is read from it; the canonical
form of memory needs the field. -/
def Element.unchanged : Element → State → State → Prop
  | .mem, s, t => t.mem = s.mem
  | .fb, s, t => t.fb = s.fb
  | .V, s, t => t.V = s.V
  | .stack, s, t => t.stack = s.stack
  | .sp, s, t => t.sp = s.sp
  | .I, s, t => t.I = s.I
  | .pc, s, t => t.pc = s.pc
  | .DT, s, t => t.DT = s.DT
  | .ST, s, t => t.ST = s.ST
  | .key, s, t => t.key = s.key
  | .awaitingKey, s, t => t.awaitingKey = s.awaitingKey
  | .keyTarget, s, t => t.keyTarget = s.keyTarget
  | .redraw, s, t => t.redraw = s.redraw
  | .fault, s, t => t.fault = s.fault
  | .rndDraws, s, t => t.rndDraws = s.rndDraws
  | .font, s, t => t.font = s.font

/-- Every field but those of the listed elements is the same. -/
def unchangedBut (written : List Element) (s t : State) : Prop := ∀ e, e ∉ written → e.unchanged s t

theorem Element.unchanged_refl (e : Element) (s : State) : e.unchanged s s := by cases e <;> rfl

theorem Element.unchanged.trans {e : Element} {s t u : State} (h : e.unchanged s t) (h' : e.unchanged t u) :
    e.unchanged s u := by
  cases e <;> exact Eq.trans h' h

theorem unchangedBut.mono {es es' : List Element} {s t : State} (h : unchangedBut es s t) (hs : es ⊆ es') :
    unchangedBut es' s t :=
  fun e he => h e fun hm => he (hs hm)

/-- Two updates one after the other write what either writes. -/
theorem unchangedBut.append {es es' : List Element} {s t u : State} (h : unchangedBut es s t)
    (h' : unchangedBut es' t u) : unchangedBut (es ++ es') s u :=
  fun e he => (h e fun hm => he (List.mem_append_left _ hm)).trans (h' e fun hm => he (List.mem_append_right _ hm))

theorem unchangedBut.byteAt {es : List Element} {s t : State} (h : unchangedBut es s t) (hm : .mem ∉ es)
    (hf : .font ∉ es) (a : Nat) : t.byteAt a = s.byteAt a :=
  State.byteAt_congr (h .mem hm) (h .font hf) a

theorem unchangedBut.stackEntry {es : List Element} {s t : State} (h : unchangedBut es s t) (hs : .stack ∉ es)
    (k : Nat) : t.stackEntry k = s.stackEntry k := by
  have hstack : t.stack = s.stack := h .stack hs
  simp only [State.stackEntry, hstack]

/-- What is read from an unchanged field is the same; what is read from memory depends on `FONT` too. -/
theorem unchangedBut.sameBut {es : List Element} {s t : State} (h : unchangedBut es s t) (hf : .font ∉ es) :
    sameBut es s t := by
  intro e he
  have hu := h e he
  cases e
  case mem => exact h.byteAt he hf
  case V => exact State.readV_congr hu
  case stack => exact h.stackEntry he
  case fb => intro r c; rw [State.pixel, State.pixel, show t.fb = s.fb from hu]
  case key => intro k; simp only [State.keyDown, show t.key = s.key from hu]
  all_goals exact hu

/-! ## One rule for each update of the state -/

section Rules

variable (s : State)

theorem unchangedBut_advance (k : Word) : unchangedBut [.pc] s (s.advance k) := by
  intro e he; cases e <;> simp_all [Element.unchanged]

theorem unchangedBut_jump (target : Word) : unchangedBut [.pc] s (s.jump target) := by
  intro e he; cases e <;> simp_all [Element.unchanged]

theorem unchangedBut_skipIf (condition : Bool) : unchangedBut [.pc] s (s.skipIf condition) := by
  cases condition <;> exact unchangedBut_advance _ _

theorem unchangedBut_writeV (x : Nibble) (v : Byte) : unchangedBut [.V] s (s.writeV x v) := by
  intro e he; cases e <;> simp_all [Element.unchanged]

theorem unchangedBut_writeFlag (f : Bool) : unchangedBut [.V] s (s.writeFlag f) := unchangedBut_writeV s VF _

theorem unchangedBut_writeResultAndFlag (x : Nibble) (v : Byte) (f : Bool) :
    unchangedBut [.V] s (s.writeResultAndFlag x v f) :=
  ((unchangedBut_writeV s x v).append (unchangedBut_writeFlag _ f)).mono (by simp)

theorem unchangedBut_takeFault (c : FaultCause) (op : Word) : unchangedBut [.fault] s (s.takeFault c op) := by
  intro e he; cases e <;> simp_all [Element.unchanged]

theorem unchangedBut_storeBytes (a : Nat) (vs : List Byte) : unchangedBut [.mem] s (s.storeBytes a vs) := by
  intro e he; cases e <;> simp_all [Element.unchanged]

theorem unchangedBut_writeKey (k : Nibble) (p : Bool) : unchangedBut [.key] s (s.writeKey k p) := by
  intro e he; cases e <;> simp_all [Element.unchanged, State.writeKey]

theorem unchangedBut_setI (i : Word) : unchangedBut [.I] s { s with I := i } := by
  intro e he; cases e <;> simp_all [Element.unchanged]

theorem unchangedBut_setVI (V : Vector Byte 16) (i : Word) : unchangedBut [.V, .I] s { s with V := V, I := i } := by
  intro e he; cases e <;> simp_all [Element.unchanged]

theorem unchangedBut_setTimers (dt st : Byte) : unchangedBut [.DT, .ST] s { s with DT := dt, ST := st } := by
  intro e he; cases e <;> simp_all [Element.unchanged]

theorem unchangedBut_setDT (v : Byte) : unchangedBut [.DT] s { s with DT := v } := by
  intro e he; cases e <;> simp_all [Element.unchanged]

theorem unchangedBut_setST (v : Byte) : unchangedBut [.ST] s { s with ST := v } := by
  intro e he; cases e <;> simp_all [Element.unchanged]

theorem unchangedBut_setRedraw (b : Bool) : unchangedBut [.redraw] s { s with redraw := b } := by
  intro e he; cases e <;> simp_all [Element.unchanged]

theorem unchangedBut_setScreen (fb : Framebuffer) :
    unchangedBut [.fb, .redraw] s { s with fb := fb, redraw := true } := by
  intro e he; cases e <;> simp_all [Element.unchanged]

theorem unchangedBut_setWait (x : Nibble) :
    unchangedBut [.awaitingKey, .keyTarget] s { s with awaitingKey := true, keyTarget := x } := by
  intro e he; cases e <;> simp_all [Element.unchanged]

theorem unchangedBut_endWait : unchangedBut [.awaitingKey] s { s with awaitingKey := false } := by
  intro e he; cases e <;> simp_all [Element.unchanged]

theorem unchangedBut_setRndDraws (n : Nat) : unchangedBut [.rndDraws] s { s with rndDraws := n } := by
  intro e he; cases e <;> simp_all [Element.unchanged]

theorem unchangedBut_setSp (sp : Fin 17) : unchangedBut [.sp] s { s with sp := sp } := by
  intro e he; cases e <;> simp_all [Element.unchanged]

theorem unchangedBut_setStack (stack : Vector Word 16) (sp : Fin 17) :
    unchangedBut [.stack, .sp] s { s with stack := stack, sp := sp } := by
  intro e he; cases e <;> simp_all [Element.unchanged]

end Rules

end Sys2Proof.Machine

namespace Sys2Proof

open Machine

/-! ## The frame of every instruction -/

/-- An instruction that completes writes the elements R37 lists for it and no other field. -/
theorem Instr.unchangedBut_after {i : Instr} {s : State} (hf : i.faults s = none) :
    unchangedBut i.writes s (i.after s) := by
  cases i with
  | cls => exact (unchangedBut_setScreen _ _).append (unchangedBut_advance _ _)
  | ret => rw [Instr.after_ret hf]; exact (unchangedBut_setSp _ _).append (unchangedBut_jump _ _)
  | call => rw [Instr.after_call hf]; exact (unchangedBut_setStack _ _ _).append (unchangedBut_jump _ _)
  | jp | jpV0 => exact unchangedBut_jump _ _
  | seByte | sneByte | seReg | sneReg => exact unchangedBut_skipIf _ _
  | skp => rw [Instr.after_skp hf]; exact unchangedBut_skipIf _ _
  | sknp => rw [Instr.after_sknp hf]; exact unchangedBut_skipIf _ _
  | ldByte | addByte | ldReg | orReg | andReg | xorReg | ldVxDT =>
    exact (unchangedBut_writeV _ _ _).append (unchangedBut_advance _ _)
  | addReg | subReg | shr | subnReg | shl =>
    exact (unchangedBut_writeResultAndFlag _ _ _ _).append (unchangedBut_advance _ _)
  | rnd x nn =>
    have hdraw := unchangedBut_setRndDraws s (s.rndDraws + 1)
    have h := (hdraw.append (unchangedBut_writeV _ x (s.drawRnd.1 &&& nn))).append (unchangedBut_advance _ 2)
    exact h.mono (by simp [Instr.writes])
  | ldI | ldF => exact (unchangedBut_setI _ _).append (unchangedBut_advance _ _)
  | addI =>
    exact ((unchangedBut_setI _ _).append (unchangedBut_writeFlag _ _)).append (unchangedBut_advance _ _)
  | ldB =>
    rw [Instr.after_ldB hf]
    exact (unchangedBut_storeBytes _ _ _).append (unchangedBut_advance _ _)
  | ldMemVx =>
    rw [Instr.after_ldMemVx hf]
    exact ((unchangedBut_storeBytes _ _ _).append (unchangedBut_setI _ _)).append (unchangedBut_advance _ _)
  | ldVxMem =>
    rw [Instr.after_ldVxMem hf]
    exact (unchangedBut_setVI _ _ _).append (unchangedBut_advance _ _)
  | drw x y n =>
    rw [Instr.after_drw hf]
    have hscreen := unchangedBut_setScreen s (s.drawnCanvas x y n).fb
    have h := (hscreen.append (unchangedBut_writeFlag _ (s.drawnCanvas x y n).hit)).append (unchangedBut_advance _ 2)
    exact h.mono (by simp [Instr.writes])
  | ldVxK => exact (unchangedBut_setWait _ _).append (unchangedBut_advance _ _)
  | ldDTVx => exact (unchangedBut_setDT _ _).append (unchangedBut_advance _ _)
  | ldSTVx => exact (unchangedBut_setST _ _).append (unchangedBut_advance _ _)

end Sys2Proof
end

section
/-! PROOFS. The invariant of the core (10_state R40): a step does one of three things, each part of the invariant is
kept by each instruction that completes, and so every step and every operation of the host keeps the whole. -/

namespace Sys2Proof.Machine

/-! ## What a step that answers a state can do -/

/-- A step that answers a state waits, faults or completes an instruction (40_step R120). -/
theorem step_next_cases {s t : State} (h : step s = .next t) :
    (s.awaitingKey = true ∧ t = s) ∨
    (s.fault = none ∧ s.awaitingKey = false ∧ ∃ c op, t = s.takeFault c op) ∨
    (s.ready ∧ ∃ i, decode s.opcodeAtPc = .ok i ∧ i.faults s = none ∧ t = i.after s) := by
  obtain ⟨r, -, hs⟩ | ⟨-, hw, hs⟩ | ⟨hf, hw, -, hs⟩ | ⟨hr, -, hs⟩ | ⟨hr, i, hd, hs⟩ := step_cases s
  all_goals rw [hs] at h
  · cases h
  · cases h; exact .inl ⟨hw, rfl⟩
  · cases h; exact .inr (.inl ⟨hf, hw, _, _, rfl⟩)
  · cases h; exact .inr (.inl ⟨hr.1, hr.2.1, _, _, rfl⟩)
  · obtain rfl := Instr.after_of_exec h
    rcases hi : i.faults s with - | c
    · exact .inr (.inr ⟨hr, i, hd, hi, rfl⟩)
    · exact .inr (.inl ⟨hr.1, hr.2.1, c, encode i, Instr.after_of_faults hi⟩)

/-! ## The parts of the invariant depend on few fields -/

theorem State.memWf_congr {s t : State} (hm : t.mem = s.mem) (hf : t.font = s.font) : t.memWf = s.memWf := by
  rw [State.memWf, State.memWf, hm, hf]

theorem State.stackHoldsCalls_congr {s t : State} (hst : t.stack = s.stack) (hsp : t.sp = s.sp)
    (h : s.stackHoldsCalls) : t.stackHoldsCalls := by
  simpa only [State.stackHoldsCalls, State.stackEntry, hst, hsp] using h

theorem State.noFaultWhileWaiting_of_no_fault {s : State} (h : s.fault = none) : s.noFaultWhileWaiting := by
  simp [State.noFaultWhileWaiting, h]

theorem State.latchNamesPc_of_no_fault {s : State} (h : s.fault = none) : s.latchNamesPc := by
  simp [State.latchNamesPc, h]

/-- An update of the other elements keeps the invariant. -/
theorem State.Inv.of_unchangedBut {s t : State} (hs : s.Inv)
    (h : unchangedBut [.fb, .V, .I, .DT, .ST, .key, .keyTarget, .redraw, .rndDraws] s t) : t.Inv := by
  obtain ⟨hmem, hwait, hstack, hpc, hlatch⟩ := hs
  have hpc' : t.pc = s.pc := h .pc (by simp)
  have hfault : t.fault = s.fault := h .fault (by simp)
  have hawait : t.awaitingKey = s.awaitingKey := h .awaitingKey (by simp)
  refine ⟨?_, ?_, ?_, ?_, ?_⟩
  · rw [State.memWf_congr (h .mem (by simp)) (h .font (by simp))]; exact hmem
  · simpa only [State.noFaultWhileWaiting, hawait, hfault] using hwait
  · exact State.stackHoldsCalls_congr (h .stack (by simp)) (h .sp (by simp)) hstack
  · simpa only [State.pcBounded, hpc'] using hpc
  · simpa only [State.latchNamesPc, hfault, hpc'] using hlatch

/-- Taking a fault while not waiting keeps the invariant: the new latch names `pc`, which stays. -/
theorem State.Inv.takeFault {s : State} (hs : s.Inv) (hw : s.awaitingKey = false) (c : FaultCause) (op : Word) :
    (s.takeFault c op).Inv := by
  obtain ⟨hmem, -, hstack, hpc, -⟩ := hs
  refine ⟨hmem, by simp [State.noFaultWhileWaiting, hw], hstack, hpc, fun r hr => ?_⟩
  simp only [State.takeFault_fault, Option.some.injEq] at hr
  simp [← hr]

/-! ## The program counter stays within 0x10FE (10_state R23) -/

theorem State.pcBounded_advance {s : State} {k : Word} (hpc : s.pc.toNat ≤ 0xFFE) (hk : k.toNat ≤ 4) :
    (s.advance k).pcBounded := by
  simp only [State.pcBounded, State.advance_pc, BitVec.toNat_add]
  omega

theorem State.pcBounded_skipIf {s : State} (hpc : s.pc.toNat ≤ 0xFFE) (c : Bool) : (s.skipIf c).pcBounded := by
  cases c <;> exact State.pcBounded_advance hpc (by decide)

theorem State.pcBounded_jump_zextAddr (s : State) (nnn : Addr) : (s.jump (zextAddr nnn)).pcBounded := by
  have := nnn.isLt
  exact (toNat_zextAddr nnn).le.trans (by omega)

/-- The greatest sum a jump with offset can reach is 0xFFF + 0xFF. -/
theorem State.pcBounded_jump_offset (s : State) (nnn : Addr) (v : Byte) :
    (s.jump (zextAddr nnn + zextByte v)).pcBounded := by
  have := nnn.isLt
  have := v.isLt
  simp only [State.pcBounded, State.jump_pc, BitVec.toNat_add, toNat_zextAddr, toNat_zextByte]
  omega

theorem State.pcBounded_jump_return {s : State} {a : Word} (ha : a.toNat ≤ 0xFFE) : (s.jump (a + 2)).pcBounded := by
  have : (2 : Word).toNat = 2 := rfl
  simp only [State.pcBounded, State.jump_pc, BitVec.toNat_add]
  omega

end Sys2Proof.Machine

namespace Sys2Proof

open Machine

/-! ## Each part, through an instruction that completes -/

theorem Instr.font_not_written (i : Instr) : Element.font ∉ i.writes := by cases i <;> simp [Instr.writes]

theorem Instr.fault_not_written (i : Instr) : Element.fault ∉ i.writes := by cases i <;> simp [Instr.writes]

section Completes

variable {i : Instr} {s : State}

theorem Instr.font_after (hf : i.faults s = none) : (i.after s).font = s.font :=
  Instr.unchangedBut_after hf .font i.font_not_written

theorem Instr.fault_after (hf : i.faults s = none) : (i.after s).fault = s.fault :=
  Instr.unchangedBut_after hf .fault i.fault_not_written

/-- The two stores write below 0x1000 or fault. -/
theorem Instr.memWf_after (hf : i.faults s = none) (h : s.memWf = true) : (i.after s).memWf = true := by
  by_cases hm : Element.mem ∈ i.writes
  · cases i
    case ldB x =>
      have hI := Instr.index_le_of_ldB_completes hf
      rw [Instr.after_ldB hf]
      exact s.memWf_storeBytes _ _ h (by simp only [bcdDigits, List.length_cons, List.length_nil]; omega)
    case ldMemVx x =>
      have hI := Instr.index_le_of_ldMemVx_completes hf
      rw [Instr.after_ldMemVx hf]
      exact s.memWf_storeBytes _ _ h (by rw [State.length_registerBlock]; omega)
    all_goals simp [Instr.writes] at hm
  · rw [State.memWf_congr (Instr.unchangedBut_after hf .mem hm) (Instr.font_after hf)]
    exact h

/-- A CALL puts the address it was fetched from into the new entry; a RET takes an entry out of use. -/
theorem Instr.stackHoldsCalls_after (hf : i.faults s = none) (hpc : s.pc.toNat ≤ 0xFFE) (h : s.stackHoldsCalls) :
    (i.after s).stackHoldsCalls := by
  by_cases hsp : Element.sp ∈ i.writes
  · cases i
    case ret =>
      rw [Instr.after_ret hf]
      intro k hk
      exact h k (Nat.lt_of_lt_of_le hk (Nat.sub_le _ _))
    case call nnn =>
      intro k hk
      have hlt : k < s.sp.val + 1 := by rw [Instr.after_call hf] at hk; exact hk
      rw [Instr.stackEntry_after_call hf]
      split
      · exact hpc
      · exact h k (by omega)
    all_goals simp [Instr.writes] at hsp
  · have hst : Element.stack ∉ i.writes := by cases i <;> simp_all [Instr.writes]
    exact State.stackHoldsCalls_congr (Instr.unchangedBut_after hf .stack hst) (Instr.unchangedBut_after hf .sp hsp) h

theorem Instr.pcBounded_after (hf : i.faults s = none) (hpc : s.pc.toNat ≤ 0xFFE) (h : s.stackHoldsCalls) :
    (i.after s).pcBounded := by
  cases i
  case ret =>
    have hne : s.sp.val ≠ 0 := by simpa [Instr.faults] using hf
    rw [Instr.after_ret hf]
    exact State.pcBounded_jump_return (h _ (by omega))
  case call nnn => rw [Instr.after_call hf]; exact State.pcBounded_jump_zextAddr _ nnn
  case jp nnn => exact State.pcBounded_jump_zextAddr _ nnn
  case jpV0 nnn => exact State.pcBounded_jump_offset _ nnn _
  case seByte | sneByte | seReg | sneReg => exact State.pcBounded_skipIf hpc _
  case skp => rw [Instr.after_skp hf]; exact State.pcBounded_skipIf hpc _
  case sknp => rw [Instr.after_sknp hf]; exact State.pcBounded_skipIf hpc _
  case drw => rw [Instr.after_drw hf]; exact State.pcBounded_advance hpc (by decide)
  case ldB => rw [Instr.after_ldB hf]; exact State.pcBounded_advance hpc (by decide)
  case ldMemVx => rw [Instr.after_ldMemVx hf]; exact State.pcBounded_advance hpc (by decide)
  case ldVxMem => rw [Instr.after_ldVxMem hf]; exact State.pcBounded_advance hpc (by decide)
  all_goals exact State.pcBounded_advance hpc (by decide)

/-- Each part of the invariant is kept by an instruction that completes. -/
theorem Instr.inv_after (hf : i.faults s = none) (hr : s.ready) (hs : s.Inv) : (i.after s).Inv := by
  obtain ⟨hfault, -, hpc⟩ := hr
  have hfault' : (i.after s).fault = none := (Instr.fault_after hf).trans hfault
  exact ⟨Instr.memWf_after hf hs.memory, State.noFaultWhileWaiting_of_no_fault hfault',
    Instr.stackHoldsCalls_after hf hpc hs.stack, Instr.pcBounded_after hf hpc hs.stack,
    State.latchNamesPc_of_no_fault hfault'⟩

end Completes

end Sys2Proof

namespace Sys2Proof.Machine

/-! ## Reset and step -/

theorem State.inv_resetWith (font : Font) : (State.resetWith font).Inv where
  memory := State.memWf_resetWith font
  waiting := State.noFaultWhileWaiting_of_no_fault rfl
  stack k hk := absurd hk (Nat.not_lt_zero k)
  pc := Nat.le_of_ble_eq_true rfl
  latch := State.latchNamesPc_of_no_fault rfl

theorem State.Inv.step {s t : State} (hs : s.Inv) (h : step s = .next t) : t.Inv := by
  obtain ⟨-, rfl⟩ | ⟨-, hw, c, op, rfl⟩ | ⟨hr, i, -, hf, rfl⟩ := step_next_cases h
  · exact hs
  · exact hs.takeFault hw c op
  · exact Instr.inv_after hf hr hs

/-! ## The operations of the host -/

theorem font_step {s t : State} (h : step s = .next t) : t.font = s.font := by
  obtain ⟨-, rfl⟩ | ⟨-, -, c, op, rfl⟩ | ⟨-, i, -, hf, rfl⟩ := step_next_cases h
  · rfl
  · rfl
  · exact Instr.font_after hf

/-- A step leaves the host with its next state, or with the state as it was. -/
theorem stepOperation_cases (s : State) :
    (∃ t, step s = .next t ∧ operate .step s = (t, t.stepReport)) ∨ (operate .step s).1 = s := by
  rcases hs : step s with t | r | r
  · exact .inl ⟨t, rfl, by simp only [operate, stepOperation, hs, settle]⟩
  · exact .inr (by simp only [operate, stepOperation, hs, settle])
  · exact .inr (by simp only [operate, stepOperation, hs, settle])

theorem operate_load_of_fits {image : List Byte} (h : image.length ≤ 3584) (s : State) :
    operate (.load image) s = (s.storeBytes 0x200 image, .ok) := by
  simp only [operate, load, Image.wellFormed, h, decide_true, if_true]

theorem operate_load_of_too_long {image : List Byte} (h : 3584 < image.length) (s : State) :
    operate (.load image) s = (s, .imageTooLarge) := by
  simp only [operate, (load_eq_none_iff image s).2 h]

theorem unchangedBut_load (image : List Byte) (s : State) : unchangedBut [.mem] s (operate (.load image) s).1 := by
  rcases Nat.lt_or_ge 3584 image.length with h | h
  · rw [operate_load_of_too_long h]; exact fun e _ => e.unchanged_refl s
  · rw [operate_load_of_fits h]; exact unchangedBut_storeBytes _ _ _

theorem unchangedBut_tickTimers (s : State) : unchangedBut [.DT, .ST] s (tickTimers s) := by
  unfold tickTimers
  split
  · exact fun e _ => e.unchanged_refl s
  · exact unchangedBut_setTimers _ _ _

theorem unchangedBut_setKey (k : Nibble) (p : Bool) (s : State) :
    unchangedBut [.key, .V, .awaitingKey] s (setKey k p s) := by
  unfold setKey
  split
  · exact ((unchangedBut_writeKey _ _ _).append (unchangedBut_writeV _ _ _)).append (unchangedBut_endWait _)
  · exact (unchangedBut_writeKey _ _ _).mono (by simp)

/-! ## Each operation keeps the invariant and `FONT` -/

theorem State.Inv.endWait {s : State} (hs : s.Inv) : State.Inv { s with awaitingKey := false } :=
  ⟨hs.memory, by simp [State.noFaultWhileWaiting], hs.stack, hs.pc, hs.latch⟩

theorem State.Inv.setKey {s : State} (hs : s.Inv) (k : Nibble) (p : Bool) : (setKey k p s).Inv := by
  have hkey : (s.writeKey k p).Inv := hs.of_unchangedBut ((unchangedBut_writeKey s k p).mono (by simp))
  unfold Machine.setKey
  split
  · exact (hkey.of_unchangedBut ((unchangedBut_writeV _ s.keyTarget (zextNibble k)).mono (by simp))).endWait
  · exact hkey

/-- An image that fits ends at 0x0FFF, so the load keeps memory canonical. -/
theorem State.Inv.load {s : State} (hs : s.Inv) (image : List Byte) : (operate (.load image) s).1.Inv := by
  rcases Nat.lt_or_ge 3584 image.length with h | h
  · rw [operate_load_of_too_long h]; exact hs
  · rw [operate_load_of_fits h]
    exact ⟨s.memWf_storeBytes _ _ hs.memory (by omega), hs.waiting, hs.stack, hs.pc, hs.latch⟩

theorem State.Inv.operate {s : State} (hs : s.Inv) (op : Operation) : (operate op s).1.Inv := by
  cases op with
  | reset => exact (State.inv_resetWith s.font).of_unchangedBut ((unchangedBut_setRndDraws _ _).mono (by simp))
  | load image => exact hs.load image
  | step =>
    obtain ⟨t, ht, ho⟩ | ho := stepOperation_cases s
    · rw [ho]; exact hs.step ht
    · rw [ho]; exact hs
  | tickTimers => exact hs.of_unchangedBut ((unchangedBut_tickTimers s).mono (by simp))
  | setKey k p => exact hs.setKey k p
  | ackRedraw => exact hs.of_unchangedBut ((unchangedBut_setRedraw s false).mono (by simp))

theorem font_operate (s : State) (op : Operation) : (operate op s).1.font = s.font := by
  cases op with
  | reset => rfl
  | load image => exact unchangedBut_load image s .font (by simp)
  | step =>
    obtain ⟨t, ht, ho⟩ | ho := stepOperation_cases s
    · rw [ho]; exact font_step ht
    · rw [ho]
  | tickTimers => exact unchangedBut_tickTimers s .font (by simp)
  | setKey k p => exact unchangedBut_setKey k p s .font (by simp)
  | ackRedraw => rfl

end Sys2Proof.Machine

/-! ## The obligations on the invariant -/

open Sys2Proof Sys2Proof.Machine

/-- Settles O49: the reset state meets each part, over every `FONT`. -/
theorem resetMeetsInvariant : Obligations.ResetMeetsInvariant :=
  ⟨State.inv_resetWith defaultFont, State.inv_resetWith⟩

/-- Settles O50: waiting, faulting and completing an instruction each keep the invariant. -/
theorem stepKeepsInvariant : Obligations.StepKeepsInvariant := fun _ _ hs h => hs.step h

/-- Settles O51, by induction on the list of operations. -/
theorem operationsKeepInvariant : Obligations.OperationsKeepInvariant := by
  intro ops
  induction ops with
  | nil => exact fun s hs => ⟨hs, rfl⟩
  | cons op ops ih =>
    intro s hs
    obtain ⟨hinv, hfont⟩ := ih _ (hs.operate op)
    exact ⟨hinv, hfont.trans (font_operate s op)⟩
end

section
/-! PROOFS. What an instruction that completes leaves of the elements it writes in part: the registers it does not name,
the bytes it does not store, the entries a CALL does not write (10_state R37), and the flag in `VF` (10_state R22). -/

namespace Sys2Proof

open Machine

section Completes

variable {i : Instr} {s : State}

/-! ## The parts of a written element that stay -/

theorem Instr.readV_after_of_not_written (hf : i.faults s = none) {r : Nibble} (hr : i.writesRegister r = false) :
    (i.after s).readV r = s.readV r := by
  by_cases hV : Element.V ∈ i.writes
  · cases i
    case ldByte | addByte | ldReg | orReg | andReg | xorReg | rnd | ldVxDT =>
      exact State.readV_writeV_other _ _ (by simpa [Instr.writesRegister] using hr)
    case addReg | subReg | shr | subnReg | shl =>
      simp only [Instr.writesRegister, Bool.or_eq_false_iff, beq_eq_false_iff_ne] at hr
      exact State.readV_writeResultAndFlag_other _ _ _ hr.2 hr.1
    case addI =>
      have hVF : r ≠ VF := by simpa [Instr.writesRegister] using hr
      exact State.readV_writeV_other _ _ hVF
    case drw =>
      have hVF : r ≠ VF := by simpa [Instr.writesRegister] using hr
      rw [Instr.after_drw hf]
      exact State.readV_writeV_other _ _ hVF
    case ldVxMem x =>
      have hlt : x.toNat < r.toNat := by simpa [Instr.writesRegister] using hr
      rw [Instr.after_ldVxMem hf]
      refine (getElem_setRegisters s.V 0 _ r.toNat r.isLt).trans (if_neg ?_)
      rw [State.length_bytesAt, blockCount]
      omega
    all_goals simp [Instr.writes] at hV
  · exact State.readV_congr (Instr.unchangedBut_after hf .V hV) r

theorem Instr.byteAt_after_outside (hf : i.faults s = none) {a : Nat}
    (ha : a < s.I.toNat ∨ s.I.toNat + i.storedBytes ≤ a) : (i.after s).byteAt a = s.byteAt a := by
  by_cases hm : Element.mem ∈ i.writes
  · cases i
    case ldB x =>
      rw [Instr.after_ldB hf]
      refine (s.byteAt_storeBytes s.I.toNat a _).trans (if_neg ?_)
      simp only [Instr.storedBytes] at ha
      simp only [bcdDigits, List.length_cons, List.length_nil]
      omega
    case ldMemVx x =>
      rw [Instr.after_ldMemVx hf]
      refine (s.byteAt_storeBytes s.I.toNat a _).trans (if_neg ?_)
      simp only [Instr.storedBytes, blockCount] at ha
      rw [State.length_registerBlock]
      omega
    all_goals simp [Instr.writes] at hm
  · exact (Instr.unchangedBut_after hf).byteAt hm i.font_not_written a

theorem Instr.stackEntry_after_other (hf : i.faults s = none) {k : Nat} (hk : k ≠ s.sp.val) :
    (i.after s).stackEntry k = s.stackEntry k := by
  by_cases hst : Element.stack ∈ i.writes
  · cases i
    case call nnn => rw [Instr.stackEntry_after_call hf, if_neg hk]
    all_goals simp [Instr.writes] at hst
  · exact (Instr.unchangedBut_after hf).stackEntry hst k

/-! ## The flag -/

theorem flagByte_eq_zero_or_one (f : Bool) : flagByte f = 0 ∨ flagByte f = 1 := by
  cases f
  · exact .inl rfl
  · exact .inr rfl

/-- The flag is the last write of each of the seven, so it stands whichever register is the destination. -/
theorem Instr.readV_VF_after_of_writesFlag (hf : i.faults s = none) (hw : i.writesFlag = true) :
    ∃ f, (i.after s).readV VF = flagByte f := by
  cases i
  case addReg | subReg | shr | subnReg | shl => exact ⟨_, State.readV_writeResultAndFlag_flag _ _ _ _⟩
  case addI => exact ⟨_, State.readV_writeV_same _ _ _⟩
  case drw => rw [Instr.after_drw hf]; exact ⟨_, State.readV_writeV_same _ _ _⟩
  all_goals cases hw

end Completes

end Sys2Proof

/-! ## The obligations on what an instruction writes -/

open Sys2Proof Sys2Proof.Machine

/-- Settles O55: an instruction whose fault condition holds takes the fault entry; one that completes has the frame of
`Instr.unchangedBut_after`, and the partly written elements stay outside what it names. -/
theorem instructionsWriteOnlyWhatTheTableLists : Obligations.InstructionsWriteOnlyWhatTheTableLists := by
  intro i s t h
  obtain rfl := Instr.after_of_exec h
  constructor
  · intro hne
    obtain ⟨c, hc⟩ := Option.ne_none_iff_exists'.1 hne
    rw [Instr.after_of_faults hc]
    exact (unchangedBut_takeFault s c _).sameBut (by simp)
  · intro hf
    exact ⟨(Instr.unchangedBut_after hf).sameBut i.font_not_written,
      fun _ hr => Instr.readV_after_of_not_written hf hr,
      fun _ ha => Instr.byteAt_after_outside hf ha,
      fun _ hk => Instr.stackEntry_after_other hf hk⟩

/-- Settles O27: the flag is a flag byte; any other instruction names `VF` only as its destination or in the block it
loads. -/
theorem flagInstructionsLeaveZeroOrOne : Obligations.FlagInstructionsLeaveZeroOrOne := by
  intro i s t hf h
  obtain rfl := Instr.after_of_exec h
  constructor
  · intro hw
    obtain ⟨f, hVF⟩ := Instr.readV_VF_after_of_writesFlag hf hw
    rw [hVF]
    exact flagByte_eq_zero_or_one f
  · intro hw hdest
    apply Instr.readV_after_of_not_written hf
    cases i
    case ldByte | addByte | ldReg | orReg | andReg | xorReg | rnd | ldVxDT =>
      exact beq_false_of_ne (Ne.symm hdest)
    case addReg | subReg | shr | subnReg | shl | addI | drw => cases hw
    case ldVxMem x =>
      have hlt : x.toNat ≠ 15 := fun e => hdest (BitVec.eq_of_toNat_eq e)
      have := x.isLt
      exact decide_eq_false (show ¬ 15 ≤ x.toNat by omega)
    all_goals rfl
end

section
/-! PROOFS. The transitions of the control state (10_state R35). -/

namespace Sys2Proof

/-! ## The one opcode that begins a wait -/

/-- An opcode is put together from its fields `top`, `x` and `nn` (00_scope R9). -/
theorem formatXNN_fields (op : Word) : formatXNN (Opcode.top op) (Opcode.x op) (Opcode.nn op) = op := by
  have htopx : op.extractLsb' 12 4 ++ op.extractLsb' 8 4 = op.extractLsb' 8 8 :=
    BitVec.extractLsb'_append_extractLsb'_eq_extractLsb' rfl
  have hall : op.extractLsb' 8 8 ++ op.extractLsb' 0 8 = op.extractLsb' 0 16 :=
    BitVec.extractLsb'_append_extractLsb'_eq_extractLsb' rfl
  rw [formatXNN, Opcode.top, Opcode.x, Opcode.nn, htopx, hall, BitVec.extractLsb'_eq_self]

theorem opcode_of_decode_ldVxK {op : Word} {x : Nibble} (h : decode op = .ok (.ldVxK x)) :
    op = 0xF#4 ++ x ++ 0x0A#8 := by
  simp only [decode, decodeAlu, decodeKey, decodeMisc] at h
  repeat' split at h
  all_goals cases h
  next hnn =>
    have htop : Opcode.top op = 0xF#4 := by
      simp only [imp_false] at *
      bv_omega
    rw [← htop, ← hnn]
    exact (formatXNN_fields op).symm

end Sys2Proof

namespace Sys2Proof.Machine

/-! ## What decides the control state -/

theorem State.control_congr {s t : State} (hf : t.fault = s.fault) (hw : t.awaitingKey = s.awaitingKey) :
    t.control = s.control := by
  rw [State.control, State.control, hf, hw]

theorem unchangedBut.control {es : List Element} {s t : State} (h : unchangedBut es s t) (hf : .fault ∉ es)
    (hw : .awaitingKey ∉ es) : t.control = s.control :=
  State.control_congr (h .fault hf) (h .awaitingKey hw)

theorem State.control_eq_running {s : State} (hf : s.fault = none) (hw : s.awaitingKey = false) :
    s.control = .running := by
  simp [State.control, hf, hw]

theorem State.control_takeFault (s : State) (c : FaultCause) (op : Word) : (s.takeFault c op).control = .faulted := by
  simp [State.control]

/-! ## The control state through a step and through a key event -/

/-- `Fx0A` is the one instruction that writes `awaitingKey`. -/
theorem Instr.eq_ldVxK_of_writes_awaitingKey {i : Instr} (h : Element.awaitingKey ∈ i.writes) : ∃ x, i = .ldVxK x := by
  cases i
  case ldVxK x => exact ⟨x, rfl⟩
  all_goals simp [Instr.writes] at h

/-- A step that changes the control state starts in Running, and either it begins the wait of a fetched `Fx0A` or it
latches a fault. -/
theorem control_step {s t : State} (h : step s = .next t) (hne : s.control ≠ t.control) :
    s.control = .running ∧
      ((t.control = .awaitingKey ∧ ∃ x : Nibble, s.fetch = some (0xF#4 ++ x ++ 0x0A#8)) ∨
        (t.control = .faulted ∧ ∃ r, t.stepReport = .fault r)) := by
  obtain ⟨-, rfl⟩ | ⟨hf, hw, c, op, rfl⟩ | ⟨⟨hf, hw, hpc⟩, i, hd, hi, rfl⟩ := step_next_cases h
  · exact absurd rfl hne
  · exact ⟨State.control_eq_running hf hw, .inr ⟨s.control_takeFault c op, _, rfl⟩⟩
  · refine ⟨State.control_eq_running hf hw, .inl ?_⟩
    by_cases hwait : Element.awaitingKey ∈ i.writes
    · obtain ⟨x, rfl⟩ := Instr.eq_ldVxK_of_writes_awaitingKey hwait
      refine ⟨?_, x, ?_⟩
      · have hfault := (Instr.fault_after hi).trans hf
        simp only [State.control, hfault]; rfl
      · rw [State.fetch_eq, if_pos hpc, opcode_of_decode_ldVxK hd]
    · exact absurd ((Instr.unchangedBut_after hi).control i.fault_not_written hwait).symm hne

/-- A key event that changes the control state is a press that ends a wait. -/
theorem control_setKey {s : State} {k : Nibble} {p : Bool} (hne : s.control ≠ (setKey k p s).control) :
    p = true ∧ s.control = .awaitingKey ∧ (setKey k p s).control = .running := by
  unfold setKey at hne ⊢
  split at hne
  next hp =>
    obtain ⟨rfl, hw⟩ : p = true ∧ s.awaitingKey = true := by simpa using hp
    rw [if_pos hp]
    rcases hf : s.fault with - | r
    · simp [State.control, hf, hw]
    · simp [State.control, hf] at hne
  next => exact absurd ((unchangedBut_writeKey s k p).control (by simp) (by simp)).symm hne

end Sys2Proof.Machine

/-! ## The obligation on the control states -/

open Sys2Proof Sys2Proof.Machine

/-- Settles O52, operation by operation: a load, a tick and an acknowledgement write neither the latch nor the wait. -/
theorem controlStatesChangeOnlyAsStated : Obligations.ControlStatesChangeOnlyAsStated := by
  intro s op hne
  cases op with
  | reset => exact .inl ⟨rfl, rfl⟩
  | load image => exact absurd ((unchangedBut_load image s).control (by simp) (by simp)).symm hne
  | step =>
    obtain ⟨t, ht, ho⟩ | ho := stepOperation_cases s
    · rw [ho] at hne ⊢
      obtain ⟨hrun, ⟨hwait, hfetch⟩ | ⟨hfault, hreport⟩⟩ := control_step ht hne
      · exact .inr (.inl ⟨hrun, hwait, rfl, hfetch⟩)
      · exact .inr (.inr (.inr ⟨hrun, hfault, rfl, hreport⟩))
    · rw [ho] at hne
      exact absurd rfl hne
  | tickTimers => exact absurd ((unchangedBut_tickTimers s).control (by simp) (by simp)).symm hne
  | setKey k p =>
    obtain ⟨rfl, hwait, hrun⟩ := control_setKey hne
    exact .inr (.inr (.inl ⟨hwait, hrun, k, rfl⟩))
  | ackRedraw => exact absurd rfl hne
end

section
/-! PROOFS. No step reads the redraw flag or the sound timer (10_state R27, R31, R37): each instruction commutes with a
change of the two, up to what it writes to them itself. -/

namespace Sys2Proof.Machine

/-- The state with the redraw flag and the sound timer set. -/
def State.withRedrawAndSound (s : State) (b : Bool) (v : Byte) : State := { s with redraw := b, ST := v }

theorem State.skipIf_withRedrawAndSound (s : State) (b : Bool) (v : Byte) (c : Bool) :
    (s.withRedrawAndSound b v).skipIf c = (s.skipIf c).withRedrawAndSound b v := by
  cases c <;> rfl

end Sys2Proof.Machine

namespace Sys2Proof

open Machine

/-- What an instruction that completes writes to the redraw flag. -/
def Instr.redrawWritten : Instr → Option Bool
  | .cls | .drw .. => some true
  | _ => none

/-- What an instruction that completes writes to the sound timer. -/
def Instr.soundWritten : Instr → State → Option Byte
  | .ldSTVx x, s => some (s.readV x)
  | _, _ => none

section Commute

variable {i : Instr} {s : State} (b : Bool) (v : Byte)

theorem Instr.faults_withRedrawAndSound : i.faults (s.withRedrawAndSound b v) = i.faults s := by
  cases i <;> rfl

/-- The effect is the same but for the two, and each is as set or takes the value written. -/
theorem Instr.after_withRedrawAndSound (hf : i.faults s = none) :
    i.after (s.withRedrawAndSound b v) =
      (i.after s).withRedrawAndSound (i.redrawWritten.getD b) ((i.soundWritten s).getD v) := by
  have hf' : i.faults (s.withRedrawAndSound b v) = none := (Instr.faults_withRedrawAndSound b v).trans hf
  cases i
  case ret => rw [Instr.after_ret hf, Instr.after_ret hf']; rfl
  case call => rw [Instr.after_call hf, Instr.after_call hf']; rfl
  case drw => rw [Instr.after_drw hf, Instr.after_drw hf']; rfl
  case ldB => rw [Instr.after_ldB hf, Instr.after_ldB hf']; rfl
  case ldMemVx => rw [Instr.after_ldMemVx hf, Instr.after_ldMemVx hf']; rfl
  case ldVxMem => rw [Instr.after_ldVxMem hf, Instr.after_ldVxMem hf']; rfl
  case skp => rw [Instr.after_skp hf, Instr.after_skp hf']; exact s.skipIf_withRedrawAndSound b v _
  case sknp => rw [Instr.after_sknp hf, Instr.after_sknp hf']; exact s.skipIf_withRedrawAndSound b v _
  case seByte | sneByte | seReg | sneReg => exact s.skipIf_withRedrawAndSound b v _
  all_goals rfl

end Commute

end Sys2Proof

/-! ## The obligation on the redraw flag and the sound timer -/

open Sys2Proof Sys2Proof.Machine

/-- Settles O56: the tests of a step read neither, so the changed state takes the same branch; only an instruction that
completes writes them. -/
theorem redrawAndSoundTimerAreNotRead : Obligations.RedrawAndSoundTimerAreNotRead := by
  intro s t h
  obtain ⟨r, -, hs⟩ | ⟨hf, hw, hs⟩ | ⟨hf, hw, hpc, hs⟩ | ⟨hr, ⟨e, he⟩, hs⟩ | ⟨hr, i, hd, hs⟩ := step_cases s
  all_goals rw [hs] at h
  · cases h
  · cases h
    exact ⟨none, none, fun b v => step_of_waiting hf hw⟩
  · cases h
    exact ⟨none, none, fun b v => step_of_pc_outside hf hw (Nat.not_le.2 hpc)⟩
  · cases h
    exact ⟨none, none, fun b v => step_of_unknown hr he⟩
  · obtain rfl := Instr.after_of_exec h
    have hstep (b : Bool) (v : Byte) :
        step (s.withRedrawAndSound b v) = .next (i.after (s.withRedrawAndSound b v)) :=
      (step_of_instr (s := s.withRedrawAndSound b v) hr hd).trans (exec_eq_next_after i _)
    rcases hi : i.faults s with - | c
    · refine ⟨i.redrawWritten, i.soundWritten s, fun b v => (hstep b v).trans ?_⟩
      rw [Instr.after_withRedrawAndSound b v hi]
      rfl
    · refine ⟨none, none, fun b v => (hstep b v).trans ?_⟩
      rw [Instr.after_of_faults hi, Instr.after_of_faults ((Instr.faults_withRedrawAndSound b v).trans hi)]
      rfl
end

section
/-! PROOFS. The values of the reset state (10_state R38). -/

namespace Sys2Proof.Machine

theorem State.stackEntry_resetWith (font : Font) (k : Nat) : (State.resetWith font).stackEntry k = 0 := by
  simp [State.stackEntry, State.resetWith]

theorem State.keyDown_resetWith (font : Font) (k : Nat) : (State.resetWith font).keyDown k = false := by
  simp [State.keyDown, State.resetWith]

theorem State.readV_resetWith (font : Font) (x : Nibble) : (State.resetWith font).readV x = 0 := by
  simp [State.readV, State.resetWith]

theorem State.hasResetValues_resetWith (font : Font) : (State.resetWith font).HasResetValues font where
  glyphs a ha := (State.byteAt_resetWith font a).trans (if_pos ha)
  zeros a ha := (State.byteAt_resetWith font a).trans (if_neg (Nat.not_le.2 ha))
  fb r c := Framebuffer.pixel_clear r c
  V := State.readV_resetWith font
  stack := State.stackEntry_resetWith font
  sp := rfl
  I := rfl
  pc := rfl
  DT := rfl
  ST := rfl
  key := State.keyDown_resetWith font
  awaitingKey := rfl
  keyTarget := rfl
  redraw := rfl
  fault := rfl

end Sys2Proof.Machine

open Sys2Proof.Machine

/-- Settles O46: the table over every `FONT`, and `State.reset` as the case of the default. -/
theorem resetStateHasTheStatedValues : Obligations.ResetStateHasTheStatedValues :=
  ⟨fun font => ⟨State.hasResetValues_resetWith font, rfl⟩, State.hasResetValues_resetWith defaultFont, rfl⟩
end

section
/-! PROOFS. A store is seen by the next fetch (20_memory R74). -/

namespace Sys2Proof
open Machine

section Dump
variable {x k : Nibble} {s : State} (hf : (Instr.ldMemVx x).faults s = none)
include hf

theorem Instr.byteAt_after_ldMemVx (hk : k.toNat ≤ x.toNat) :
    ((Instr.ldMemVx x).after s).byteAt (s.I.toNat + k.toNat) = s.readV k := by
  rw [Instr.after_ldMemVx hf]
  refine (s.byteAt_storeBytes s.I.toNat (s.I.toNat + k.toNat) _).trans ?_
  have hin : s.I.toNat ≤ s.I.toNat + k.toNat ∧
      s.I.toNat + k.toNat < s.I.toNat + (s.registerBlock (blockCount x)).length := by
    rw [State.length_registerBlock]; omega
  rw [if_pos hin, Nat.add_sub_cancel_left, State.getD_registerBlock s x k hk]

theorem Instr.pc_after_ldMemVx : ((Instr.ldMemVx x).after s).pc = s.pc + 2 := by
  rw [Instr.after_ldMemVx hf]; rfl

/-- A dump over the bytes just after itself puts `V[0]` and `V[1]` where the next opcode stands. -/
theorem Instr.opcodeAtPc_after_ldMemVx (hx : 1 ≤ x.toNat) (hI : s.I = s.pc + 2) :
    ((Instr.ldMemVx x).after s).opcodeAtPc = Opcode.ofBytes (s.readV 0) (s.readV 1) := by
  have hV0 := Instr.byteAt_after_ldMemVx (k := 0) hf (Nat.zero_le _)
  have hV1 := Instr.byteAt_after_ldMemVx (k := 1) hf hx
  rw [State.opcodeAtPc, Instr.pc_after_ldMemVx hf, ← hI]
  exact congrArg₂ Opcode.ofBytes hV0 hV1

end Dump

end Sys2Proof

open Sys2Proof Sys2Proof.Machine

/-- Settles O35: the dump leaves `pc` at `I`, where the block begins; that the block fits in memory puts this `pc` in
the range of the fetch. -/
theorem storeIsSeenByNextFetch : Obligations.StoreIsSeenByNextFetch := by
  intro x s t hx hfit _ hI h
  obtain rfl := Instr.after_of_exec h
  have hf : (Instr.ldMemVx x).faults s = none := by simpa [Instr.faults] using hfit
  have hpc : ((Instr.ldMemVx x).after s).pc.toNat ≤ 0xFFE := by
    rw [Instr.pc_after_ldMemVx hf, ← hI]; omega
  refine ⟨Opcode.ofBytes (s.readV 0) (s.readV 1), ?_, Opcode.toNat_ofBytes _ _⟩
  rw [State.fetch_eq, if_pos hpc, Instr.opcodeAtPc_after_ldMemVx hf hx hI]
end

section
/-! PROOFS. The decoder and the encoder undo each other (30_encoding R91, R101). -/

namespace Sys2Proof

/-! ## An opcode and its fields (00_scope R9, 30_encoding R91) -/

@[simp] theorem Opcode.top_formatXLL (top x : Nibble) (ll : Byte) : Opcode.top (formatXLL top x ll) = top :=
  Opcode.top_formatXNN top x ll

@[simp] theorem Opcode.x_formatXLL (top x : Nibble) (ll : Byte) : Opcode.x (formatXLL top x ll) = x :=
  Opcode.x_formatXNN top x ll

@[simp] theorem Opcode.nn_formatXLL (top x : Nibble) (ll : Byte) : Opcode.nn (formatXLL top x ll) = ll :=
  Opcode.nn_formatXNN top x ll

theorem formatNNN_fields (op : Word) : formatNNN (Opcode.top op) (Opcode.nnn op) = op := by
  have h : op.extractLsb' 12 4 ++ op.extractLsb' 0 12 = op.extractLsb' 0 16 :=
    BitVec.extractLsb'_append_extractLsb'_eq_extractLsb' rfl
  rw [formatNNN, Opcode.top, Opcode.nnn, h, BitVec.extractLsb'_eq_self]

theorem formatXYN_fields (op : Word) :
    formatXYN (Opcode.top op) (Opcode.x op) (Opcode.y op) (Opcode.n op) = op := by
  have htopx : op.extractLsb' 12 4 ++ op.extractLsb' 8 4 = op.extractLsb' 8 8 :=
    BitVec.extractLsb'_append_extractLsb'_eq_extractLsb' rfl
  have htopxy : op.extractLsb' 8 8 ++ op.extractLsb' 4 4 = op.extractLsb' 4 12 :=
    BitVec.extractLsb'_append_extractLsb'_eq_extractLsb' rfl
  have hall : op.extractLsb' 4 12 ++ op.extractLsb' 0 4 = op.extractLsb' 0 16 :=
    BitVec.extractLsb'_append_extractLsb'_eq_extractLsb' rfl
  rw [formatXYN, Opcode.top, Opcode.x, Opcode.y, Opcode.n, htopx, htopxy, hall, BitVec.extractLsb'_eq_self]

section Fields
variable {op : Word} {top n : Nibble} {ll : Byte}

theorem formatNNN_of_fields (ht : Opcode.top op = top) : formatNNN top (Opcode.nnn op) = op := by
  rw [← ht, formatNNN_fields]

theorem formatXNN_of_fields (ht : Opcode.top op = top) : formatXNN top (Opcode.x op) (Opcode.nn op) = op := by
  rw [← ht, formatXNN_fields]

theorem formatXYN_of_fields (ht : Opcode.top op = top) (hn : Opcode.n op = n) :
    formatXYN top (Opcode.x op) (Opcode.y op) n = op := by
  rw [← ht, ← hn, formatXYN_fields]

theorem formatXLL_of_fields (ht : Opcode.top op = top) (hll : Opcode.nn op = ll) :
    formatXLL top (Opcode.x op) ll = op := by
  rw [formatXLL_eq, ← hll, formatXNN_of_fields ht]

end Fields

/-! ## Decoding what was encoded -/

/-- Each format gives its fields back, and the fields choose the arm of the decoder. -/
@[simp] theorem decode_encode (i : Instr) : decode (encode i) = .ok i := by
  cases i
  case cls | ret => rfl
  case jp | call | ldI | jpV0 => simp [encode, decode]
  case seByte | sneByte | ldByte | addByte | rnd => simp [encode, decode]
  case seReg | sneReg | drw => simp [encode, decode]
  case ldReg | orReg | andReg | xorReg | addReg | subReg | shr | subnReg | shl => simp [encode, decode, decodeAlu]
  case skp | sknp => simp [encode, decode, decodeKey]
  case ldVxDT | ldVxK | ldDTVx | ldSTVx | addI | ldF | ldB | ldMemVx | ldVxMem => simp [encode, decode, decodeMisc]

theorem decodeBytes_encodeBytes_append (i : Instr) (rest : List Byte) :
    decodeBytes (encodeBytes i ++ rest) = .ok (i, rest) := by
  simp [encodeBytes, decodeBytes]

/-! ## Encoding what was decoded -/

/-- The last arm of the decoder is group F: the other fifteen top nibbles have an arm of their own (30_encoding R93). -/
theorem Nibble.eq_F_of_ne {q : Nibble} (h0 : q ≠ 0x0) (h1 : q ≠ 0x1) (h2 : q ≠ 0x2) (h3 : q ≠ 0x3) (h4 : q ≠ 0x4)
    (h5 : q ≠ 0x5) (h6 : q ≠ 0x6) (h7 : q ≠ 0x7) (h8 : q ≠ 0x8) (h9 : q ≠ 0x9) (hA : q ≠ 0xA) (hB : q ≠ 0xB)
    (hC : q ≠ 0xC) (hD : q ≠ 0xD) (hE : q ≠ 0xE) : q = 0xF := by
  bv_omega

section Inverse
variable {op : Word} {i : Instr}

theorem encode_of_decodeAlu (ht : Opcode.top op = 0x8) (h : decodeAlu op = .ok i) : encode i = op := by
  unfold decodeAlu at h
  split at h
  case h_10 => cases h
  all_goals next hn => cases h; exact formatXYN_of_fields ht hn

theorem encode_of_decodeKey (ht : Opcode.top op = 0xE) (h : decodeKey op = .ok i) : encode i = op := by
  unfold decodeKey at h
  split at h
  case h_3 => cases h
  all_goals next hll => cases h; exact formatXLL_of_fields ht hll

theorem encode_of_decodeMisc (ht : Opcode.top op = 0xF) (h : decodeMisc op = .ok i) : encode i = op := by
  unfold decodeMisc at h
  split at h
  case h_10 => cases h
  all_goals next hll => cases h; exact formatXLL_of_fields ht hll

/-- Each arm of the decoder names the fields it has read, and the format puts them together again. -/
theorem encode_of_decode (h : decode op = .ok i) : encode i = op := by
  unfold decode at h
  split at h
  case h_1 =>
    split at h
    next hop => cases h; exact hop.symm
    · split at h
      next hop => cases h; exact hop.symm
      · cases h
  case h_2 ht | h_3 ht | h_11 ht | h_12 ht => cases h; exact formatNNN_of_fields ht
  case h_4 ht | h_5 ht | h_7 ht | h_8 ht | h_13 ht => cases h; exact formatXNN_of_fields ht
  case h_6 ht | h_10 ht =>
    split at h
    next hn => cases h; exact formatXYN_of_fields ht hn
    · cases h
  case h_9 ht => exact encode_of_decodeAlu ht h
  case h_14 ht => cases h; exact formatXYN_of_fields ht rfl
  case h_15 ht => exact encode_of_decodeKey ht h
  case h_16 => exact encode_of_decodeMisc (by apply Nibble.eq_F_of_ne <;> assumption) h

end Inverse

end Sys2Proof

open Sys2Proof

/-- Settles O2: the two bytes in memory order put together again are the opcode, so the second part is the first. -/
theorem decodeOfEncodeIsIdentity : Obligations.DecodeOfEncodeIsIdentity :=
  fun i => ⟨decode_encode i, decodeBytes_encodeBytes_append i⟩

/-- Settles O3, by the arms of the decoder. -/
theorem encodeOfDecodeIsIdentity : Obligations.EncodeOfDecodeIsIdentity := fun _ _ h => encode_of_decode h

/-- Settles O1, by evaluating the decoder on the eleven words. -/
theorem sampleWordsDecode : Obligations.SampleWordsDecode := by
  unfold Obligations.SampleWordsDecode
  decide
end

section
/-! PROOFS. The decoder and the opcode table agree: an opcode selects a row exactly when it is the encoding of an
instruction with the row's mnemonic (30_encoding R100, R101). -/

namespace Sys2Proof

/-! ## An opcode from the bits a mask keeps and its operand fields -/

theorem Opcode.and_mask_FFFF (op : Word) : op &&& 0xFFFF = op := BitVec.and_allOnes

section Masks
open Laws.OpcodeTableRow
variable {op : Word} {top n : Nibble} {ll : Byte}

theorem formatNNN_of_mask (h : op &&& 0xF000 = formatNNN top 0) : formatNNN top (Opcode.nnn op) = op := by
  rw [← formatNNN_fields op, maskNNN] at h
  exact formatNNN_of_fields (by simpa using congrArg Opcode.top h)

theorem formatXNN_of_mask (h : op &&& 0xF000 = formatXNN top 0 0) :
    formatXNN top (Opcode.x op) (Opcode.nn op) = op := by
  rw [← formatXNN_fields op, maskXNN] at h
  exact formatXNN_of_fields (by simpa using congrArg Opcode.top h)

theorem formatXYN_of_operand_mask (h : op &&& 0xF000 = formatXYN top 0 0 0) :
    formatXYN top (Opcode.x op) (Opcode.y op) (Opcode.n op) = op := by
  rw [← formatXYN_fields op, maskXYN_operand] at h
  exact formatXYN_of_fields (by simpa using congrArg Opcode.top h) rfl

theorem formatXYN_of_mask (h : op &&& 0xF00F = formatXYN top 0 0 n) :
    formatXYN top (Opcode.x op) (Opcode.y op) n = op := by
  rw [← formatXYN_fields op, maskXYN] at h
  exact formatXYN_of_fields (by simpa using congrArg Opcode.top h) (by simpa using congrArg Opcode.n h)

theorem formatXLL_of_mask (h : op &&& 0xF0FF = formatXLL top 0 ll) : formatXLL top (Opcode.x op) ll = op := by
  rw [← formatXNN_fields op, ← formatXLL_eq, maskXLL] at h
  exact formatXLL_of_fields (by simpa using congrArg Opcode.top h) (by simpa using congrArg Opcode.nn h)

end Masks

/-! ## From a row to an instruction -/

/-- Every opcode that selects the row is the encoding of an instruction with the row's mnemonic. -/
def OpcodeRow.encodesMnemonic (row : OpcodeRow) : Prop :=
  ∀ op, op &&& row.mask = row.pattern → ∃ i, encode i = op ∧ row.mnemonic = i.mnemonic

theorem OpcodeTable.encodesMnemonic_lowGroups : ∀ row ∈ lowGroups, row.encodesMnemonic := by
  simp only [lowGroups, List.forall_mem_cons]
  exact ⟨fun _ h => ⟨.cls, h.symm.trans (Opcode.and_mask_FFFF _), rfl⟩,
    fun _ h => ⟨.ret, h.symm.trans (Opcode.and_mask_FFFF _), rfl⟩,
    fun _ h => ⟨.jp _, formatNNN_of_mask h, rfl⟩,
    fun _ h => ⟨.call _, formatNNN_of_mask h, rfl⟩,
    fun _ h => ⟨.seByte _ _, formatXNN_of_mask h, rfl⟩,
    fun _ h => ⟨.sneByte _ _, formatXNN_of_mask h, rfl⟩,
    fun _ h => ⟨.seReg _ _, formatXYN_of_mask h, rfl⟩,
    fun _ h => ⟨.ldByte _ _, formatXNN_of_mask h, rfl⟩,
    fun _ h => ⟨.addByte _ _, formatXNN_of_mask h, rfl⟩,
    List.forall_mem_nil _⟩

theorem OpcodeTable.encodesMnemonic_aluGroup : ∀ row ∈ aluGroup, row.encodesMnemonic := by
  simp only [aluGroup, List.forall_mem_cons]
  exact ⟨fun _ h => ⟨.ldReg _ _, formatXYN_of_mask h, rfl⟩,
    fun _ h => ⟨.orReg _ _, formatXYN_of_mask h, rfl⟩,
    fun _ h => ⟨.andReg _ _, formatXYN_of_mask h, rfl⟩,
    fun _ h => ⟨.xorReg _ _, formatXYN_of_mask h, rfl⟩,
    fun _ h => ⟨.addReg _ _, formatXYN_of_mask h, rfl⟩,
    fun _ h => ⟨.subReg _ _, formatXYN_of_mask h, rfl⟩,
    fun _ h => ⟨.shr _ _, formatXYN_of_mask h, rfl⟩,
    fun _ h => ⟨.subnReg _ _, formatXYN_of_mask h, rfl⟩,
    fun _ h => ⟨.shl _ _, formatXYN_of_mask h, rfl⟩,
    List.forall_mem_nil _⟩

theorem OpcodeTable.encodesMnemonic_highGroups : ∀ row ∈ highGroups, row.encodesMnemonic := by
  simp only [highGroups, List.forall_mem_cons]
  exact ⟨fun _ h => ⟨.sneReg _ _, formatXYN_of_mask h, rfl⟩,
    fun _ h => ⟨.ldI _, formatNNN_of_mask h, rfl⟩,
    fun _ h => ⟨.jpV0 _, formatNNN_of_mask h, rfl⟩,
    fun _ h => ⟨.rnd _ _, formatXNN_of_mask h, rfl⟩,
    fun _ h => ⟨.drw _ _ _, formatXYN_of_operand_mask h, rfl⟩,
    fun _ h => ⟨.skp _, formatXLL_of_mask h, rfl⟩,
    fun _ h => ⟨.sknp _, formatXLL_of_mask h, rfl⟩,
    List.forall_mem_nil _⟩

theorem OpcodeTable.encodesMnemonic_miscGroup : ∀ row ∈ miscGroup, row.encodesMnemonic := by
  simp only [miscGroup, List.forall_mem_cons]
  exact ⟨fun _ h => ⟨.ldVxDT _, formatXLL_of_mask h, rfl⟩,
    fun _ h => ⟨.ldVxK _, formatXLL_of_mask h, rfl⟩,
    fun _ h => ⟨.ldDTVx _, formatXLL_of_mask h, rfl⟩,
    fun _ h => ⟨.ldSTVx _, formatXLL_of_mask h, rfl⟩,
    fun _ h => ⟨.addI _, formatXLL_of_mask h, rfl⟩,
    fun _ h => ⟨.ldF _, formatXLL_of_mask h, rfl⟩,
    fun _ h => ⟨.ldB _, formatXLL_of_mask h, rfl⟩,
    fun _ h => ⟨.ldMemVx _, formatXLL_of_mask h, rfl⟩,
    fun _ h => ⟨.ldVxMem _, formatXLL_of_mask h, rfl⟩,
    List.forall_mem_nil _⟩

theorem OpcodeTable.encodesMnemonic_of_mem {row : OpcodeRow} (h : row ∈ rows) : row.encodesMnemonic := by
  simp only [rows, List.mem_append] at h
  obtain ((h | h) | h) | h := h
  · exact encodesMnemonic_lowGroups row h
  · exact encodesMnemonic_aluGroup row h
  · exact encodesMnemonic_highGroups row h
  · exact encodesMnemonic_miscGroup row h

section Selected
variable {row row' : OpcodeRow} {op : Word} (hrow : row ∈ OpcodeTable.rows) (h : op &&& row.mask = row.pattern)
include hrow h

theorem OpcodeTable.decode_of_selected : ∃ i, decode op = .ok i ∧ row.mnemonic = i.mnemonic := by
  obtain ⟨i, rfl, hm⟩ := encodesMnemonic_of_mem hrow op h
  exact ⟨i, decode_encode i, hm⟩

theorem OpcodeTable.mnemonic_of_decode {i : Instr} (hd : decode op = .ok i) : row.mnemonic = i.mnemonic := by
  obtain ⟨j, hj, hm⟩ := decode_of_selected hrow h
  obtain rfl : i = j := Except.ok.inj (hd.symm.trans hj)
  exact hm

/-- Two rows an opcode selects have the mnemonic of what it decodes to, and no two rows share a mnemonic. -/
theorem OpcodeTable.rows_disjoint (hrow' : row' ∈ rows) (h' : op &&& row'.mask = row'.pattern) : row = row' := by
  have hnodup : (rows.map OpcodeRow.mnemonic).Nodup := by decide
  obtain ⟨i, hd, hm⟩ := decode_of_selected hrow h
  exact List.inj_on_of_nodup_map hnodup hrow hrow' (hm.trans (mnemonic_of_decode hrow' h' hd).symm)

end Selected

/-! ## From an instruction to its row -/

open Laws.OpcodeTableRow in
theorem OpcodeTable.exists_row_selects_encode (i : Instr) : Statement i := by
  cases i <;> simp only [cls, ret, jp, call, seByte, sneByte, seReg, ldByte, addByte, ldReg, orReg, andReg, xorReg,
    addReg, subReg, shr, subnReg, shl, sneReg, ldI, jpV0, rnd, drw, skp, sknp, ldVxDT, ldVxK, ldDTVx, ldSTVx, addI, ldF,
    ldB, ldMemVx, ldVxMem]

theorem OpcodeTable.selected_of_decode {op : Word} {i : Instr} (h : decode op = .ok i) :
    ∃ row ∈ rows, op &&& row.mask = row.pattern := by
  obtain ⟨row, hrow, -, hsel⟩ := exists_row_selects_encode i
  rw [encode_of_decode h] at hsel
  exact ⟨row, hrow, beq_iff_eq.1 hsel⟩

end Sys2Proof

open Sys2Proof

/-- Settles O4: an opcode that selects a row is the encoding of an instruction with the row's mnemonic, so it decodes to
that instruction; an opcode that decodes is an encoding, and each encoding selects its row. -/
theorem decoderAgreesWithOpcodeTable : Obligations.DecoderAgreesWithOpcodeTable := by
  refine ⟨fun op => ⟨fun ⟨i, hd⟩ => OpcodeTable.selected_of_decode hd, fun ⟨row, hrow, h⟩ => ?_⟩,
    fun op row hrow row' hrow' h h' => OpcodeTable.rows_disjoint hrow h hrow' h',
    fun op i hd row hrow h => OpcodeTable.mnemonic_of_decode hrow h hd⟩
  obtain ⟨i, hd, -⟩ := OpcodeTable.decode_of_selected hrow h
  exact ⟨i, hd⟩
end

section
/-! PROOFS. The opcodes the decoder rejects as unknown (30_encoding R98). -/

namespace Sys2Proof

/-! ## The fields of an opcode as numbers -/

theorem Opcode.toNat_top (op : Word) : (Opcode.top op).toNat = op.toNat / 4096 := by
  rw [Opcode.top, BitVec.extractLsb'_toNat, Nat.shiftRight_eq_div_pow]
  omega

theorem Opcode.toNat_n (op : Word) : (Opcode.n op).toNat = op.toNat % 16 := by
  rw [Opcode.n, BitVec.extractLsb'_toNat, Nat.shiftRight_zero]

theorem Opcode.toNat_nn (op : Word) : (Opcode.nn op).toNat = op.toNat % 256 := by
  rw [Opcode.nn, BitVec.extractLsb'_toNat, Nat.shiftRight_zero]

/-! ## The unknown opcodes of the groups decoded in two levels -/

theorem decodeAlu_eq_unknown_iff (op : Word) : decodeAlu op = .error (.unknownOpcode op) ↔
    (Opcode.n op).toNat ∈ [0x8, 0x9, 0xA, 0xB, 0xC, 0xD, 0xF] := by
  unfold decodeAlu
  split
  case h_10 =>
    simp only [imp_false, List.mem_cons, List.not_mem_nil, or_false, true_iff] at *
    bv_omega
  all_goals next hn => simp [hn]

theorem decodeKey_eq_unknown_iff (op : Word) : decodeKey op = .error (.unknownOpcode op) ↔
    (Opcode.nn op).toNat ∉ [0x9E, 0xA1] := by
  unfold decodeKey
  split
  case h_3 => simp_all [BitVec.toNat_eq]
  all_goals next hnn => simp [hnn]

theorem decodeMisc_eq_unknown_iff (op : Word) : decodeMisc op = .error (.unknownOpcode op) ↔
    (Opcode.nn op).toNat ∉ [0x07, 0x0A, 0x15, 0x18, 0x1E, 0x29, 0x33, 0x55, 0x65] := by
  unfold decodeMisc
  split
  case h_10 => simp_all [BitVec.toNat_eq]
  all_goals next hnn => simp [hnn]

end Sys2Proof

open Sys2Proof

/-- Settles O5: the top nibble chooses the arm of the decoder and the one set of R98 that can hold; ten of the groups
have no unknown opcode. -/
theorem unknownOpcodesAreTheSixSets : Obligations.UnknownOpcodesAreTheSixSets := by
  intro op
  rw [← Opcode.toNat_top, ← Opcode.toNat_n, ← Opcode.toNat_nn]
  unfold decode
  split
  case h_1 ht =>
    simp only [ht, BitVec.toNat_eq]
    split_ifs with hcls hret
    · simp [hcls]
    · simp [hret]
    · simpa using And.intro hcls hret
  case h_6 ht | h_10 ht => simp [ht, BitVec.toNat_eq]
  case h_9 ht => simp [ht, decodeAlu_eq_unknown_iff]
  case h_15 ht => simp [ht, decodeKey_eq_unknown_iff]
  case h_16 =>
    have ht : Opcode.top op = 0xF := by apply Nibble.eq_F_of_ne <;> assumption
    simp [ht, decodeMisc_eq_unknown_iff]
  all_goals next ht => simp [ht]
end

section
/-! PROOFS. What one step does (40_step): the opcode it fetches, whether it answers a state, how each instruction leaves
`pc`, and that it leaves a Faulted and a waiting core as they are. -/

namespace Sys2Proof.Machine

section Step
variable {s t : State}

/-! ## The fetch (40_step R123) -/

theorem State.toNat_opcodeAtPc (s : State) :
    s.opcodeAtPc.toNat = 256 * (s.byteAt s.pc.toNat).toNat + (s.byteAt (s.pc.toNat + 1)).toNat :=
  Opcode.toNat_ofBytes _ _

theorem State.opcodeAtPc_eq_ofNat (s : State) :
    s.opcodeAtPc = BitVec.ofNat 16 (256 * (s.byteAt s.pc.toNat).toNat + (s.byteAt (s.pc.toNat + 1)).toNat) := by
  rw [← s.toNat_opcodeAtPc, BitVec.ofNat_toNat, BitVec.setWidth_eq]

/-! ## The outcome of a step (40_step R121, R124) -/

theorem step_answers_of_no_fault (h : s.fault = none) : ∃ t, step s = .next t := by
  obtain ⟨r, hr, -⟩ | ⟨-, -, hs⟩ | ⟨-, -, -, hs⟩ | ⟨-, -, hs⟩ | ⟨-, i, -, hs⟩ := step_cases s
  · rw [h] at hr; cases hr
  · exact ⟨_, hs⟩
  · exact ⟨_, hs⟩
  · exact ⟨_, hs⟩
  · exact ⟨_, hs.trans (exec_eq_next_after i s)⟩

theorem step_eq_fault_iff {f : Fault} : step s = .fault f ↔ ∃ r, s.fault = some r ∧ f = .halted r := by
  constructor
  · intro hs
    rcases hf : s.fault with - | r
    · obtain ⟨t, ht⟩ := step_answers_of_no_fault hf
      rw [ht] at hs; cases hs
    · rw [step_of_faulted hf] at hs; cases hs
      exact ⟨r, rfl, rfl⟩
  · rintro ⟨r, hr, rfl⟩
    exact step_of_faulted hr

/-! ## What the host is left with after a step (40_step R127) -/

theorem operate_step_of_next (h : step s = .next t) : operate .step s = (t, t.stepReport) := congrArg (settle s) h

theorem operate_step_of_faulted {r : FaultRecord} (h : s.fault = some r) : operate .step s = (s, .fault r) := by
  simp only [operate, stepOperation, step_of_faulted h, settle, State.stepReport, h]

/-! ## What ends a wait (40_step R122, 70_reset R281) -/

theorem eq_of_step_of_waiting (hw : s.awaitingKey = true) (h : step s = .next t) : t = s := by
  obtain ⟨-, rfl⟩ | ⟨-, hw', -⟩ | ⟨⟨-, hw', -⟩, -⟩ := step_next_cases h
  · rfl
  all_goals rw [hw] at hw'; cases hw'

theorem awaitingKey_setKey_release (k : Nibble) (s : State) : (setKey k false s).awaitingKey = s.awaitingKey := rfl

/-- Every operation but a reset and a press leaves a waiting core waiting. -/
theorem awaitingKey_operate {op : Operation} (hw : s.awaitingKey = true) (hreset : op ≠ .reset)
    (hpress : ∀ k, op ≠ .setKey k true) : (operate op s).1.awaitingKey = true := by
  cases op with
  | reset => exact absurd rfl hreset
  | load image => exact Eq.trans (unchangedBut_load image s .awaitingKey (by simp)) hw
  | step =>
    obtain ⟨t, ht, ho⟩ | ho := stepOperation_cases s
    · rw [ho, eq_of_step_of_waiting hw ht]; exact hw
    · rw [ho]; exact hw
  | tickTimers => exact Eq.trans (unchangedBut_tickTimers s .awaitingKey (by simp)) hw
  | setKey k p =>
    cases p
    case false => exact (awaitingKey_setKey_release k s).trans hw
    case true => exact absurd rfl (hpress k)
  | ackRedraw => exact hw

end Step

/-! ## Where a skip leaves `pc` (40_step R128) -/

section Skip
variable {α : Type} [DecidableEq α] (s : State) (a b : α)

theorem State.pc_skipIf_beq : (s.skipIf (a == b)).pc = if a = b then s.pc + 4 else s.pc + 2 := by
  rw [State.skipIf_pc]
  simp only [beq_iff_eq]

theorem State.pc_skipIf_bne : (s.skipIf (a != b)).pc = if a = b then s.pc + 2 else s.pc + 4 := by
  rw [State.skipIf_pc]
  simp only [bne_iff_ne, ne_eq, ite_not]

theorem State.pc_skipIf_not (c : Bool) : (s.skipIf !c).pc = if c = true then s.pc + 2 else s.pc + 4 := by
  cases c <;> rfl

end Skip

end Sys2Proof.Machine

/-! ## The obligations on the step -/

open Sys2Proof Sys2Proof.Machine

/-- Settles O13, by the branches of a step: each but that of a Faulted core answers a next state. -/
theorem stepAnswersUnlessFaulted : Obligations.StepAnswersUnlessFaulted :=
  ⟨fun _ h => step_answers_of_no_fault h, fun _ _ => step_eq_fault_iff⟩

/-- Settles O14, instruction by instruction: a fault entry keeps `pc`; an instruction that completes jumps, skips or
advances by 2. -/
theorem pcAfterEachInstruction : Obligations.PcAfterEachInstruction := by
  intro i s t h
  obtain rfl := Instr.after_of_exec h
  constructor
  · intro hne
    obtain ⟨c, hc⟩ := Option.ne_none_iff_exists'.1 hne
    rw [Instr.after_of_faults hc, State.takeFault_pc]
  · intro hf
    cases i
    case ret => rw [Instr.after_ret hf]; rfl
    case call => rw [Instr.after_call hf]; rfl
    case seByte | seReg => exact s.pc_skipIf_beq _ _
    case sneByte | sneReg => exact s.pc_skipIf_bne _ _
    case skp => rw [Instr.after_skp hf]; exact s.skipIf_pc _
    case sknp => rw [Instr.after_sknp hf]; exact s.pc_skipIf_not _
    case drw => rw [Instr.after_drw hf]; rfl
    case ldB => rw [Instr.after_ldB hf]; rfl
    case ldMemVx => exact Instr.pc_after_ldMemVx hf
    case ldVxMem => rw [Instr.after_ldVxMem hf]; rfl
    all_goals rfl

/-- Settles O6: the two bytes at `pc` as a number are the opcode the step decodes. -/
theorem stepRunsDecodedInstruction : Obligations.StepRunsDecodedInstruction := by
  intro s i hf hw hpc hd
  rw [← State.opcodeAtPc_eq_ofNat] at hd
  exact step_of_instr ⟨hf, hw, hpc⟩ hd

/-- Settles O7: the outcome of a Faulted core's step carries no next state, so the host keeps the old one. -/
theorem faultedStepChangesNothing : Obligations.FaultedStepChangesNothing := fun _ _ h => operate_step_of_faulted h

/-- Settles O8: a waiting step answers its own state, in which no fault is latched; every operation but a reset and a
press keeps the core waiting. -/
theorem waitingStepChangesNothing : Obligations.WaitingStepChangesNothing := by
  constructor
  · intro s hf hw
    have hs := step_of_waiting hf hw
    refine ⟨hs, ?_⟩
    rw [operate_step_of_next hs, State.stepReport, hf]
  · intro s op hw hend
    by_contra! hne
    obtain ⟨hreset, hpress⟩ := hne
    rw [awaitingKey_operate hw hreset hpress] at hend
    cases hend

/-- Settles O9: the fetch answers the opcode at `pc` up to 0xFFE, and above it the step takes the fault entry. -/
theorem fetchReadsTwoBytesOrFaults : Obligations.FetchReadsTwoBytesOrFaults := by
  constructor
  · intro s hpc
    exact ⟨s.opcodeAtPc, s.fetch_eq.trans (if_pos hpc), s.toNat_opcodeAtPc⟩
  · intro s hf hw hpc
    have hout : ¬ s.pc.toNat ≤ 0xFFE := Nat.not_le.2 hpc
    refine ⟨s.fetch_eq.trans (if_neg hout), ?_⟩
    rw [step_of_pc_outside hf hw hout]
    rfl
end

section
/-! PROOFS. Control transfer (41_flow): the calls and returns, the jumps and the skips, each with the frame of
10_state R37. -/

namespace Sys2Proof

open Machine

/-! ## What an instruction leaves the host with (40_step R127) -/

section Outcome
variable {i : Instr} {s : State}

theorem Instr.latches_of_faults {c : FaultCause} (h : i.faults s = some c) : latches s (exec i s) c (encode i) := by
  rw [exec_eq_next_after, Instr.after_of_faults h]
  rfl

theorem Instr.sameBut_after (hf : i.faults s = none) : sameBut i.writes s (i.after s) :=
  (Instr.unchangedBut_after hf).sameBut i.font_not_written

end Outcome

/-! ## Calls and returns (41_flow R142, R144) -/

section Stack
variable {s : State} {nnn : Addr}

theorem Instr.ret_completes (h : s.sp.val ≠ 0) : Instr.ret.faults s = none := if_neg h

theorem Instr.sp_after_ret (h : Instr.ret.faults s = none) : (Instr.ret.after s).sp.val = s.sp.val - 1 := by
  rw [Instr.after_ret h]; rfl

theorem Instr.pc_after_ret (h : Instr.ret.faults s = none) :
    (Instr.ret.after s).pc = s.stackEntry (s.sp.val - 1) + 2 := by
  rw [Instr.after_ret h]; rfl

theorem Instr.call_completes (h : s.sp.val < 16) : (Instr.call nnn).faults s = none := if_neg h.ne

theorem Instr.sp_after_call (h : (Instr.call nnn).faults s = none) :
    ((Instr.call nnn).after s).sp.val = s.sp.val + 1 := by
  rw [Instr.after_call h]; rfl

theorem Instr.pc_after_call (h : (Instr.call nnn).faults s = none) :
    ((Instr.call nnn).after s).pc = zextAddr nnn := by
  rw [Instr.after_call h]; rfl

theorem Instr.stackEntry_after_call_pushed (h : (Instr.call nnn).faults s = none) :
    ((Instr.call nnn).after s).stackEntry s.sp.val = s.pc := by
  rw [Instr.stackEntry_after_call h, if_pos rfl]

end Stack

/-! ## The low nibble of groups 5 and 9 (30_encoding R96) -/

section LowNibble
variable (x y n : Nibble)

theorem decode_formatXYN_group5 : decode (formatXYN 0x5 x y n) =
    if n = 0 then .ok (.seReg x y) else .error (.unknownOpcode (formatXYN 0x5 x y n)) := by
  simp [decode]

theorem decode_formatXYN_group9 : decode (formatXYN 0x9 x y n) =
    if n = 0 then .ok (.sneReg x y) else .error (.unknownOpcode (formatXYN 0x9 x y n)) := by
  simp [decode]

end LowNibble

end Sys2Proof

namespace Sys2Proof.Machine

variable (s : State)

/-! ## An instruction in memory (30_encoding R90, 40_step R123) -/

theorem step_of_encoded_at_pc {s : State} {i : Instr} (hr : s.ready)
    (hhi : s.byteAt s.pc.toNat = Opcode.hiByte (encode i))
    (hlo : s.byteAt (s.pc.toNat + 1) = Opcode.loByte (encode i)) : step s = exec i s := by
  have hop : s.opcodeAtPc = encode i := by rw [State.opcodeAtPc, hhi, hlo, Opcode.ofBytes_bytes]
  exact step_of_instr hr (by rw [hop, decode_encode])

/-! ## Jumps (41_flow R143, R149) -/

theorem sameBut_jump (target : Word) : sameBut [.pc] s (s.jump target) := (unchangedBut_jump s target).sameBut (by simp)

/-- The greatest sum, 0xFFF + 0xFF, is below 65536. -/
theorem toNat_zextAddr_add_zextByte (nnn : Addr) (v : Byte) :
    (zextAddr nnn + zextByte v).toNat = nnn.toNat + v.toNat := by
  have := nnn.isLt
  have := v.isLt
  rw [BitVec.toNat_add, toNat_zextAddr, toNat_zextByte]
  omega

theorem State.jump_zextAddr_of_pc {s : State} {nnn : Addr} (h : s.pc.toNat = nnn.toNat) :
    s.jump (zextAddr nnn) = s := by
  have hpc : zextAddr nnn = s.pc := BitVec.eq_of_toNat_eq ((toNat_zextAddr nnn).trans h.symm)
  rw [hpc]
  rfl

/-! ## Skips (41_flow R145 to R148) -/

theorem sameBut_skipIf (condition : Bool) : sameBut [.pc] s (s.skipIf condition) :=
  (unchangedBut_skipIf s condition).sameBut (by simp)

theorem State.toNat_pc_skipIf (condition : Bool) :
    (s.skipIf condition).pc.toNat = (s.pc.toNat + if condition then 4 else 2) % 65536 := by
  cases condition
  · exact BitVec.toNat_add s.pc 2
  · exact BitVec.toNat_add s.pc 4

theorem State.toNat_pc_skipIf_beq {w : Nat} (a b : BitVec w) :
    (s.skipIf (a == b)).pc.toNat = (s.pc.toNat + if a.toNat = b.toNat then 4 else 2) % 65536 := by
  simp only [State.toNat_pc_skipIf, beq_iff_eq, BitVec.toNat_eq]

theorem State.toNat_pc_skipIf_bne {w : Nat} (a b : BitVec w) :
    (s.skipIf (a != b)).pc.toNat = (s.pc.toNat + if a.toNat = b.toNat then 2 else 4) % 65536 := by
  simp only [State.toNat_pc_skipIf, bne_iff_ne, ne_eq, ite_not, BitVec.toNat_eq]

end Sys2Proof.Machine

/-! ## The obligations on control transfer -/

open Sys2Proof Sys2Proof.Machine

/-- Settles O17: the newest entry of the stack the CALL left is the CALL's own address, and the CALL pushed no other. -/
theorem returnUndoesCall : Obligations.ReturnUndoesCall := by
  intro s t u nnn hlt h hstack hsp
  obtain rfl := Instr.after_of_exec h
  have hcall : (Instr.call nnn).faults s = none := Instr.call_completes hlt
  have hcount : u.sp.val = s.sp.val + 1 := by rw [hsp, Instr.sp_after_call hcall]
  have hentry (k : Nat) : u.stackEntry k = ((Instr.call nnn).after s).stackEntry k := by
    simp only [State.stackEntry, hstack]
  have hret : Instr.ret.faults u = none := Instr.ret_completes (by omega)
  refine ⟨_, exec_eq_next_after .ret u, ?_, Fin.ext ?_, fun k hk => ?_⟩
  · rw [Instr.pc_after_ret hret, hcount, Nat.add_sub_cancel, hentry, Instr.stackEntry_after_call_pushed hcall]
  · rw [Instr.sp_after_ret hret, hcount, Nat.add_sub_cancel]
  · calc (Instr.ret.after u).stackEntry k
      _ = u.stackEntry k := Instr.sameBut_after hret .stack (by simp [Instr.writes]) k
      _ = ((Instr.call nnn).after s).stackEntry k := hentry k
      _ = s.stackEntry k := Instr.stackEntry_after_other hcall hk

/-- Settles O57: the opcode fetched is the jump's own encoding, and it jumps to where `pc` already is. -/
theorem selfJumpIsAFixedPoint : Obligations.SelfJumpIsAFixedPoint := by
  intro s nnn hf hw hpc hle hhi hlo
  rw [← hpc] at hle hhi hlo
  calc step s = exec (.jp nnn) s := step_of_encoded_at_pc ⟨hf, hw, hle⟩ hhi hlo
    _ = .next (s.jump (zextAddr nnn)) := rfl
    _ = .next s := by rw [State.jump_zextAddr_of_pc hpc]

/-- Settles O15, by whether an entry is in use. -/
theorem returnPopsTheNewestEntry : Obligations.ReturnPopsTheNewestEntry := by
  refine ⟨decode_encode .ret, fun s hne => ?_, fun s he => Instr.latches_of_faults (i := .ret) (if_pos he)⟩
  have hf : Instr.ret.faults s = none := Instr.ret_completes hne
  refine ⟨_, exec_eq_next_after .ret s, Instr.sp_after_ret hf, ?_, Instr.sameBut_after hf⟩
  rw [Instr.pc_after_ret hf]
  exact BitVec.toNat_add _ _

/-- Settles O16, by whether the stack has room. -/
theorem callPushesItsOwnAddress : Obligations.CallPushesItsOwnAddress := by
  intro nnn
  refine ⟨decode_encode (.call nnn), fun s hlt => ?_,
    fun s hfull => Instr.latches_of_faults (i := .call nnn) (if_pos hfull)⟩
  have hf : (Instr.call nnn).faults s = none := Instr.call_completes hlt
  refine ⟨_, exec_eq_next_after (.call nnn) s, Instr.sp_after_call hf, Instr.stackEntry_after_call_pushed hf,
    fun k hk => Instr.stackEntry_after_other hf hk, ?_, Instr.sameBut_after hf⟩
  rw [Instr.pc_after_call hf, toNat_zextAddr]

/-- Settles O18: each jump is `State.jump` to its target. -/
theorem jumpsWriteOnlyPc : Obligations.JumpsWriteOnlyPc := fun nnn s =>
  ⟨decode_encode (.jp nnn), decode_encode (.jpV0 nnn),
    ⟨s.jump (zextAddr nnn), rfl, toNat_zextAddr nnn, sameBut_jump s _⟩,
    ⟨s.jump (zextAddr nnn + zextByte (s.readV 0)), rfl, toNat_zextAddr_add_zextByte nnn _, sameBut_jump s _⟩⟩

/-- Settles O19: each skip is `State.skipIf` on its comparison. -/
theorem skipsOnByteWriteOnlyPc : Obligations.SkipsOnByteWriteOnlyPc := fun x nn s =>
  ⟨decode_encode (.seByte x nn), decode_encode (.sneByte x nn),
    ⟨s.skipIf (s.readV x == nn), rfl, sameBut_skipIf s _, s.toNat_pc_skipIf_beq _ _⟩,
    ⟨s.skipIf (s.readV x != nn), rfl, sameBut_skipIf s _, s.toNat_pc_skipIf_bne _ _⟩⟩

/-- Settles O20: each skip is `State.skipIf` on its comparison, and the low nibble decides whether the word decodes. -/
theorem skipsOnRegistersWriteOnlyPc : Obligations.SkipsOnRegistersWriteOnlyPc := fun x y s =>
  ⟨decode_formatXYN_group5 x y, decode_formatXYN_group9 x y,
    ⟨s.skipIf (s.readV x == s.readV y), rfl, sameBut_skipIf s _, s.toNat_pc_skipIf_beq _ _⟩,
    ⟨s.skipIf (s.readV x != s.readV y), rfl, sameBut_skipIf s _, s.toNat_pc_skipIf_bne _ _⟩⟩
end

section
/-! PROOFS. The register instructions and the random byte (42_alu): each is one of two writes to the registers followed
by `advance 2`, and each flag is a number computed from the operands. -/

namespace Sys2Proof.Machine

/-! ## Results as numbers (00_scope R5, 42_alu R160) -/

section Results

variable (a b : Byte)

/-- The difference wraps modulo 256. -/
theorem toNat_sub_byte : (a - b).toNat = (a.toNat + 256 - b.toNat) % 256 := by
  have := b.isLt
  rw [BitVec.toNat_sub]
  omega

theorem toNat_shiftRight_one : (a >>> 1).toNat = a.toNat / 2 := BitVec.toNat_ushiftRight a 1

theorem toNat_shiftLeft_one : (a <<< 1).toNat = 2 * a.toNat % 256 := by
  rw [BitVec.toNat_shiftLeft, Nat.shiftLeft_eq, Nat.mul_comm]

/-! ## Flags as numbers (10_state R22) -/

theorem toNat_flagByte_carryOut : (flagByte (carryOut a b)).toNat = if 255 < a.toNat + b.toNat then 1 else 0 := by
  simp only [toNat_flagByte, carryOut, decide_eq_true_eq]

theorem toNat_flagByte_noBorrow : (flagByte (noBorrow a b)).toNat = if b.toNat ≤ a.toNat then 1 else 0 := by
  simp only [toNat_flagByte, noBorrow, decide_eq_true_eq]

theorem toNat_flagByte_getLsbD (k : Nat) : (flagByte (a.getLsbD k)).toNat = a.toNat / 2 ^ k % 2 := by
  rw [toNat_flagByte, ← Nat.toNat_testBit, Bool.toNat, cond_eq_ite]
  rfl

theorem toNat_flagByte_shiftedOutRight : (flagByte (shiftedOutRight a)).toNat = a.toNat % 2 := by
  rw [shiftedOutRight, toNat_flagByte_getLsbD, pow_zero, Nat.div_one]

/-- Bit 7 is the highest bit of a byte, so nothing is left above it. -/
theorem toNat_flagByte_shiftedOutLeft : (flagByte (shiftedOutLeft a)).toNat = a.toNat / 128 := by
  have := a.isLt
  rw [shiftedOutLeft, toNat_flagByte_getLsbD]
  omega

end Results

/-! ## What a register write leaves unchanged (42_alu R160) -/

section Frame

variable (s : State) (x : Nibble) (v : Byte) (f : Bool)

theorem sameRegistersBut_writeV : sameRegistersBut [x] s (s.writeV x v) :=
  fun _ hr => s.readV_writeV_other v (List.ne_of_not_mem_cons hr)

theorem sameRegistersBut_writeResultAndFlag : sameRegistersBut [x, VF] s (s.writeResultAndFlag x v f) := by
  intro r hr
  have hVF : r ≠ VF := List.ne_of_not_mem_cons (List.not_mem_of_not_mem_cons hr)
  exact s.readV_writeResultAndFlag_other v f hVF (List.ne_of_not_mem_cons hr)

theorem sameBut_advance_writeV (k : Word) : sameBut [.V, .pc] s ((s.writeV x v).advance k) :=
  ((unchangedBut_writeV s x v).append (unchangedBut_advance _ k)).sameBut (by simp)

theorem sameBut_advance_writeResultAndFlag (k : Word) :
    sameBut [.V, .pc] s ((s.writeResultAndFlag x v f).advance k) :=
  ((unchangedBut_writeResultAndFlag s x v f).append (unchangedBut_advance _ k)).sameBut (by simp)

end Frame

/-! ## The two kinds of register instruction -/

section Kinds

variable {i : Instr} {s : State} {x : Nibble} {v : Byte}

/-- An instruction that writes a result and no flag. -/
theorem exec_writes_result (h : exec i s = .next ((s.writeV x v).advance 2)) :
    ∃ t, exec i s = .next t ∧ t.readV x = v ∧ sameRegistersBut [x] s t ∧ t.pc = s.pc + 2 ∧
      sameBut [.V, .pc] s t :=
  ⟨_, h, s.readV_writeV_same x v, sameRegistersBut_writeV s x v, rfl, sameBut_advance_writeV s x v 2⟩

/-- The same with the result given bit by bit. -/
theorem exec_writes_bits {bits : Nat → Bool} (h : exec i s = .next ((s.writeV x v).advance 2))
    (hbits : ∀ b, v.getLsbD b = bits b) :
    ∃ t, exec i s = .next t ∧ (∀ b, (t.readV x).getLsbD b = bits b) ∧ sameRegistersBut [x] s t ∧
      t.pc = s.pc + 2 ∧ sameBut [.V, .pc] s t := by
  obtain ⟨t, ht, hv, hframe⟩ := exec_writes_result h
  exact ⟨t, ht, fun b => by rw [hv, hbits], hframe⟩

/-- An instruction that writes a result and then its flag: the flag stands when the destination is `VF`. -/
theorem exec_writes_result_and_flag {f : Bool} {result flag : Nat}
    (h : exec i s = .next ((s.writeResultAndFlag x v f).advance 2)) (hresult : v.toNat = result)
    (hflag : (flagByte f).toNat = flag) :
    ∃ t, exec i s = .next t ∧ (x ≠ VF → (t.readV x).toNat = result) ∧ (t.readV VF).toNat = flag ∧
      sameRegistersBut [x, VF] s t ∧ t.pc = s.pc + 2 ∧ sameBut [.V, .pc] s t := by
  refine ⟨_, h, fun hx => ?_, ?_, sameRegistersBut_writeResultAndFlag s x v f, rfl,
    sameBut_advance_writeResultAndFlag s x v f 2⟩
  · rw [State.readV_advance, State.readV_writeResultAndFlag_result _ _ _ hx, hresult]
  · rw [State.readV_advance, State.readV_writeResultAndFlag_flag, hflag]

end Kinds

end Sys2Proof.Machine

/-! ## The obligations on the register instructions -/

open Sys2Proof Sys2Proof.Machine

/-- Settles O21: both write a result and no flag. -/
theorem immediatesWriteOnlyTheirRegister : Obligations.ImmediatesWriteOnlyTheirRegister := by
  intro x nn s
  refine ⟨decode_encode (.ldByte x nn), decode_encode (.addByte x nn), exec_writes_result rfl, ?_⟩
  obtain ⟨t, ht, hv, hframe⟩ := exec_writes_result (i := .addByte x nn) (s := s) rfl
  exact ⟨t, ht, by rw [hv, BitVec.toNat_add], hframe⟩

/-- Settles O22: all four write a result and no flag, and the three operations act bit by bit. -/
theorem logicWritesOnlyItsRegister : Obligations.LogicWritesOnlyItsRegister := fun x y _ =>
  ⟨⟨decode_encode (.ldReg x y), decode_encode (.orReg x y), decode_encode (.andReg x y),
    decode_encode (.xorReg x y)⟩,
    exec_writes_result rfl,
    exec_writes_bits rfl fun _ => BitVec.getLsbD_or,
    exec_writes_bits rfl fun _ => BitVec.getLsbD_and,
    exec_writes_bits rfl fun _ => BitVec.getLsbD_xor⟩

/-- Settles O23: ADD writes the sum and then the carry of the old values. -/
theorem addWritesSumThenCarry : Obligations.AddWritesSumThenCarry := fun x y _ =>
  ⟨decode_encode (.addReg x y),
    exec_writes_result_and_flag rfl (BitVec.toNat_add _ _) (toNat_flagByte_carryOut _ _)⟩

/-- Settles O24: SUB and SUBN are one rule with the operands exchanged. -/
theorem subtractionsWriteDifferenceThenNoBorrow : Obligations.SubtractionsWriteDifferenceThenNoBorrow := fun x y _ =>
  ⟨decode_encode (.subReg x y), decode_encode (.subnReg x y),
    exec_writes_result_and_flag rfl (toNat_sub_byte _ _) (toNat_flagByte_noBorrow _ _),
    exec_writes_result_and_flag rfl (toNat_sub_byte _ _) (toNat_flagByte_noBorrow _ _)⟩

/-- Settles O25: the old bit 0 is the remainder by 2, the old bit 7 the quotient by 128. -/
theorem shiftsWriteResultThenBitShiftedOut : Obligations.ShiftsWriteResultThenBitShiftedOut := fun x y _ =>
  ⟨decode_encode (.shr x y), decode_encode (.shl x y),
    exec_writes_result_and_flag rfl (toNat_shiftRight_one _) (toNat_flagByte_shiftedOutRight _),
    exec_writes_result_and_flag rfl (toNat_shiftLeft_one _) (toNat_flagByte_shiftedOutLeft _)⟩

/-- Settles O26: the value written is the drawn byte AND `nn`, whatever byte is drawn. -/
theorem randomByteIsMasked : Obligations.RandomByteIsMasked := by
  intro x nn s
  have hv : ((Instr.rnd x nn).after s).readV x = Config.randomByte s.rndDraws &&& nn := State.readV_writeV_same _ _ _
  refine ⟨decode_encode (.rnd x nn), _, exec_eq_next_after (.rnd x nn) s, fun b => ?_, ?_, rfl,
    sameRegistersBut_writeV s.drawRnd.2 x _, rfl, Instr.sameBut_after (i := .rnd x nn) rfl⟩
  · rw [hv, BitVec.getLsbD_and]
  · rw [hv, BitVec.and_assoc, BitVec.and_not_self]
    exact BitVec.and_zero
end

section
/-! PROOFS. The index register and the memory instructions (43_index_memory): the numbers `I` takes, the bytes stored at
`I`, the registers loaded from there, each with the frame of 10_state R37. -/

namespace Sys2Proof.Machine

/-! ## The index register and its carry as numbers (43_index_memory R191, R192, R194) -/

/-- The greatest product, 5 × 0xFF, is below 65536. -/
theorem toNat_glyphAddr (v : Byte) : (glyphAddr v).toNat = 5 * v.toNat := by
  have := v.isLt
  have hmul : (glyphAddr v).toNat = v.toNat * 5 % 65536 := by
    rw [glyphAddr, BitVec.toNat_mul, toNat_zextByte]; rfl
  omega

theorem toNat_add_zextByte (i : Word) (v : Byte) : (i + zextByte v).toNat = (i.toNat + v.toNat) % 65536 := by
  rw [BitVec.toNat_add, toNat_zextByte]

theorem toNat_flagByte_indexCarryOut (i : Word) (v : Byte) :
    (flagByte (indexCarryOut i v)).toNat = if 0xFFFF < i.toNat + v.toNat then 1 else 0 := by
  simp only [toNat_flagByte, indexCarryOut, decide_eq_true_eq]

/-- Behind a block that fits in memory `I` is at most 0x1000, so the addition does not wrap. -/
theorem toNat_add_blockCount {i : Word} {x : Nibble} (h : i.toNat + x.toNat ≤ 0xFFF) :
    (i + BitVec.ofNat 16 (blockCount x)).toNat = i.toNat + x.toNat + 1 := by
  rw [BitVec.toNat_add, BitVec.toNat_ofNat, blockCount]
  omega

/-! ## Stored bytes (20_memory R68, 43_index_memory R193) -/

theorem State.byteAt_storeBytes_at (s : State) (a : Nat) {k : Nat} {vs : List Byte} (hk : k < vs.length) :
    (s.storeBytes a vs).byteAt (a + k) = vs.getD k 0 := by
  rw [State.byteAt_storeBytes, if_pos (by omega), Nat.add_sub_cancel_left]

theorem toNat_getD_bcdDigits (v : Byte) :
    ((bcdDigits v).getD 0 0).toNat = v.toNat / 100 ∧
      ((bcdDigits v).getD 1 0).toNat = v.toNat / 10 % 10 ∧
      ((bcdDigits v).getD 2 0).toNat = v.toNat % 10 :=
  ⟨BitVec.toNat_udiv, BitVec.toNat_umod.trans (congrArg (· % 10) BitVec.toNat_udiv), BitVec.toNat_umod⟩

end Sys2Proof.Machine

namespace Sys2Proof

open Machine

section Block
variable {x k : Nibble} {s : State}

/-! ## When a block fits (43_index_memory R193 to R195) -/

theorem Instr.ldB_completes (h : s.I.toNat ≤ 0xFFD) : (Instr.ldB x).faults s = none := if_neg h.not_gt

theorem Instr.ldMemVx_completes (h : s.I.toNat + x.toNat ≤ 0xFFF) : (Instr.ldMemVx x).faults s = none :=
  if_neg h.not_gt

theorem Instr.ldVxMem_completes (h : s.I.toNat + x.toNat ≤ 0xFFF) : (Instr.ldVxMem x).faults s = none :=
  if_neg h.not_gt

/-! ## The digits stored (43_index_memory R193) -/

theorem Instr.byteAt_after_ldB (hf : (Instr.ldB x).faults s = none) {k : Nat} (hk : k < 3) :
    ((Instr.ldB x).after s).byteAt (s.I.toNat + k) = (bcdDigits (s.readV x)).getD k 0 := by
  rw [Instr.after_ldB hf, State.byteAt_advance, State.byteAt_storeBytes_at _ _ (by simpa [bcdDigits] using hk)]

theorem Instr.pc_after_ldB (hf : (Instr.ldB x).faults s = none) : ((Instr.ldB x).after s).pc = s.pc + 2 := by
  rw [Instr.after_ldB hf]; rfl

/-! ## The dump and the load of a register block (43_index_memory R194, R195) -/

theorem Instr.I_after_ldMemVx (hf : (Instr.ldMemVx x).faults s = none) :
    ((Instr.ldMemVx x).after s).I = s.I + BitVec.ofNat 16 (blockCount x) := by
  rw [Instr.after_ldMemVx hf]; rfl

theorem Instr.I_after_ldVxMem (hf : (Instr.ldVxMem x).faults s = none) :
    ((Instr.ldVxMem x).after s).I = s.I + BitVec.ofNat 16 (blockCount x) := by
  rw [Instr.after_ldVxMem hf]; rfl

theorem Instr.pc_after_ldVxMem (hf : (Instr.ldVxMem x).faults s = none) :
    ((Instr.ldVxMem x).after s).pc = s.pc + 2 := by
  rw [Instr.after_ldVxMem hf]; rfl

theorem Instr.readV_after_ldVxMem_loaded (hf : (Instr.ldVxMem x).faults s = none) (hk : k.toNat ≤ x.toNat) :
    ((Instr.ldVxMem x).after s).readV k = s.byteAt (s.I.toNat + k.toNat) := by
  have hlt : k.toNat < (s.bytesAt s.I.toNat (blockCount x)).length := by
    rw [State.length_bytesAt, blockCount]; omega
  rw [Instr.after_ldVxMem hf]
  refine (getElem_setRegisters s.V 0 _ k.toNat k.isLt).trans ?_
  rw [if_pos (by omega), Nat.sub_zero, List.getD_eq_getElem _ _ hlt, State.getElem_bytesAt]

/-- The registers above `V[x]` are those the load does not write. -/
theorem Instr.readV_after_ldVxMem (hf : (Instr.ldVxMem x).faults s = none) :
    ((Instr.ldVxMem x).after s).readV k =
      if k.toNat ≤ x.toNat then s.byteAt (s.I.toNat + k.toNat) else s.readV k := by
  split
  next hk => exact Instr.readV_after_ldVxMem_loaded hf hk
  next hk => exact Instr.readV_after_of_not_written hf (decide_eq_false hk)

end Block

end Sys2Proof

/-! ## The obligations on the index register and memory -/

open Sys2Proof Sys2Proof.Machine

/-- Settles O31, by whether the three digits fit. -/
theorem bcdStoresThreeDigits : Obligations.BcdStoresThreeDigits := by
  intro x
  refine ⟨decode_encode (.ldB x), fun s hfit => ?_,
    fun s hout => Instr.latches_of_faults (i := .ldB x) (if_pos hout)⟩
  have hf : (Instr.ldB x).faults s = none := Instr.ldB_completes hfit
  have hbyte {k : Nat} (hk : k < 3) := congrArg BitVec.toNat (Instr.byteAt_after_ldB hf hk)
  obtain ⟨hhundreds, htens, hones⟩ := toNat_getD_bcdDigits (s.readV x)
  exact ⟨_, exec_eq_next_after (.ldB x) s, (hbyte (by decide)).trans hhundreds, (hbyte (by decide)).trans htens,
    (hbyte (by decide)).trans hones, fun _ ha => Instr.byteAt_after_outside hf ha, Instr.pc_after_ldB hf,
    Instr.sameBut_after hf⟩

/-- Settles O32, by whether the block fits. -/
theorem dumpStoresRegisterBlock : Obligations.DumpStoresRegisterBlock := by
  intro x
  refine ⟨decode_encode (.ldMemVx x), fun s hfit => ?_,
    fun s hout => Instr.latches_of_faults (i := .ldMemVx x) (if_pos hout)⟩
  have hf : (Instr.ldMemVx x).faults s = none := Instr.ldMemVx_completes hfit
  refine ⟨_, exec_eq_next_after (.ldMemVx x) s, fun k hk => Instr.byteAt_after_ldMemVx hf hk,
    fun _ ha => Instr.byteAt_after_outside hf ha, ?_, Instr.pc_after_ldMemVx hf, Instr.sameBut_after hf⟩
  rw [Instr.I_after_ldMemVx hf, toNat_add_blockCount hfit]

/-- Settles O33, by whether the block fits. -/
theorem loadFillsRegisterBlock : Obligations.LoadFillsRegisterBlock := by
  intro x
  refine ⟨decode_encode (.ldVxMem x), fun s hfit => ?_,
    fun s hout => Instr.latches_of_faults (i := .ldVxMem x) (if_pos hout)⟩
  have hf : (Instr.ldVxMem x).faults s = none := Instr.ldVxMem_completes hfit
  refine ⟨_, exec_eq_next_after (.ldVxMem x) s, fun k => Instr.readV_after_ldVxMem hf, ?_,
    Instr.pc_after_ldVxMem hf, Instr.sameBut_after hf⟩
  rw [Instr.I_after_ldVxMem hf, toNat_add_blockCount hfit]

/-- Settles O34: the load reads the bytes where the dump stored the registers, and both add the same to `I`. -/
theorem dumpThenLoadRestoresRegisters : Obligations.DumpThenLoadRestoresRegisters := by
  intro x s t u hfit h hmem hI
  obtain rfl := Instr.after_of_exec h
  have hdump : (Instr.ldMemVx x).faults s = none := Instr.ldMemVx_completes hfit
  have hload : (Instr.ldVxMem x).faults u = none := Instr.ldVxMem_completes (by rw [hI]; exact hfit)
  refine ⟨_, exec_eq_next_after (.ldVxMem x) u, ?_, fun k => ?_⟩
  · rw [Instr.I_after_ldVxMem hload, Instr.I_after_ldMemVx hdump, hI]
  · rw [Instr.readV_after_ldVxMem hload]
    refine if_ctx_congr Iff.rfl (fun hk => ?_) fun _ => rfl
    rw [hI, hmem, Instr.byteAt_after_ldMemVx hdump hk]

/-- Settles O28: both set `I` and advance. -/
theorem indexLoadsWriteOnlyIndex : Obligations.IndexLoadsWriteOnlyIndex :=
  ⟨fun nnn s => ⟨decode_encode (.ldI nnn), _, exec_eq_next_after (.ldI nnn) s, toNat_zextAddr nnn, rfl,
    Instr.sameBut_after (i := .ldI nnn) rfl⟩,
   fun x s => ⟨decode_encode (.ldF x), _, exec_eq_next_after (.ldF x) s, toNat_glyphAddr (s.readV x), rfl,
    Instr.sameBut_after (i := .ldF x) rfl⟩⟩

/-- Settles O29: the glyph of a digit ends at 5 × 15 + 4 = 0x4F, the last byte of `FONT`. -/
theorem fontInstructionFindsTheGlyph : Obligations.FontInstructionFindsTheGlyph := by
  intro x s hdigit hfont
  refine ⟨_, exec_eq_next_after (.ldF x) s, fun k hk => ?_⟩
  have hI : ((Instr.ldF x).after s).I.toNat = 5 * (s.readV x).toNat := toNat_glyphAddr (s.readV x)
  have hmem : sameBut [.I, .pc] s ((Instr.ldF x).after s) := Instr.sameBut_after (i := .ldF x) rfl
  rw [hI, hmem .mem (by simp) _, hfont _ (by omega)]

/-- Settles O30: the flag is the last write and every other register is one ADD I does not write. -/
theorem addToIndexWritesSumThenCarry : Obligations.AddToIndexWritesSumThenCarry := by
  intro x s
  have hf : (Instr.addI x).faults s = none := rfl
  have hflag : ((Instr.addI x).after s).readV VF = flagByte (indexCarryOut s.I (s.readV x)) :=
    State.readV_writeV_same _ _ _
  refine ⟨decode_encode (.addI x), _, exec_eq_next_after (.addI x) s, toNat_add_zextByte s.I (s.readV x), ?_,
    fun r hr => Instr.readV_after_of_not_written hf ?_, rfl, Instr.sameBut_after hf⟩
  · rw [hflag, toNat_flagByte_indexCarryOut]
  · exact beq_eq_false_iff_ne.2 (List.ne_of_not_mem_cons hr)
end

section
/-! PROOFS. The display instructions (44_display): a DRW changes each pixel by one bit of the sprite, so drawing it again
undoes it, and outside the sprite's rectangle that bit is 0. -/

namespace Sys2Proof.Machine

/-! ## The bit a sprite has at a pixel (44_display R212) -/

section Sprite
variable {s u : State} {x y n : Nibble} {r c : Nat}

/-- The bit at row `r` and column `c` of the sprite a DRW draws in this state, clipped at the edges. -/
def State.drawnBit (s : State) (x y n : Nibble) (r c : Nat) : Bool :=
  spriteMask (startColumn (s.readV x)) (startRow (s.readV y)) (s.bytesAt s.I.toNat n.toNat) r c

/-- The sprite's rows are the `n` bytes at `I`. -/
theorem State.drawnBit_eq (s : State) (x y n : Nibble) (r c : Nat) :
    s.drawnBit x y n r c =
      (decide (r ≤ 31 ∧ c ≤ 63 ∧ (s.readV y).toNat % 32 ≤ r ∧ r < (s.readV y).toNat % 32 + n.toNat ∧
        (s.readV x).toNat % 64 ≤ c ∧ c ≤ (s.readV x).toNat % 64 + 7) &&
      (s.byteAt (s.I.toNat + (r - (s.readV y).toNat % 32))).getLsbD (7 - (c - (s.readV x).toNat % 64))) := by
  rw [State.drawnBit, spriteMask, State.length_bytesAt, startColumn, startRow, spriteBit, Bool.eq_iff_iff]
  simp only [Nat.lt_succ_iff, Bool.and_eq_true, decide_eq_true_eq]
  refine and_congr_right fun hin => ?_
  have hrow : r - (s.readV y).toNat % 32 < (s.bytesAt s.I.toNat n.toNat).length := by
    rw [State.length_bytesAt]
    omega
  rw [List.getD_eq_getElem _ _ hrow, State.getElem_bytesAt]

theorem State.drawnBit_congr (hmem : ∀ a, u.byteAt a = s.byteAt a) (hI : u.I = s.I) (hx : u.readV x = s.readV x)
    (hy : u.readV y = s.readV y) : u.drawnBit x y n r c = s.drawnBit x y n r c := by
  simp only [State.drawnBit_eq, hmem, hI, hx, hy]

/-- The sprite has no bit outside its clipped rectangle. -/
theorem State.drawnBit_of_outside
    (h : r < (s.readV y).toNat % 32 ∨ min ((s.readV y).toNat % 32 + n.toNat) 32 ≤ r ∨
      c < (s.readV x).toNat % 64 ∨ min ((s.readV x).toNat % 64 + 8) 64 ≤ c) : s.drawnBit x y n r c = false := by
  rw [State.drawnBit_eq, decide_eq_false (by omega), Bool.false_and]

theorem State.pixel_drawnCanvas :
    Framebuffer.pixel (s.drawnCanvas x y n).fb r c = (s.pixel r c ^^ s.drawnBit x y n r c) :=
  pixel_drawSprite ..

/-- The sprite collides where one of its bits meets a set pixel. -/
theorem State.hit_drawnCanvas_iff :
    (s.drawnCanvas x y n).hit = true ↔ ∃ r c, s.pixel r c = true ∧ s.drawnBit x y n r c = true := by
  simp only [and_comm (a := s.pixel _ _ = true)]
  exact hit_drawSprite ..

end Sprite

end Sys2Proof.Machine

namespace Sys2Proof

open Machine

/-! ## The state a DRW leaves (44_display R212) -/

section Draw
variable {x y n : Nibble} {s : State}

/-- A DRW completes when its sprite fits in memory; `n = 0` reads nothing. -/
theorem Instr.drw_completes (h : n = 0 ∨ s.I.toNat + n.toNat - 1 ≤ 0xFFF) : (Instr.drw x y n).faults s = none := by
  refine if_neg fun hout => ?_
  obtain rfl | hfit := h
  · exact hout.2 rfl
  · exact hfit.not_gt hout.1

theorem Instr.drw_faults (hn : n ≠ 0) (h : 0xFFF < s.I.toNat + n.toNat - 1) :
    (Instr.drw x y n).faults s = some .addressOutOfRange :=
  if_pos ⟨h, fun e => hn (BitVec.eq_of_toNat_eq e)⟩

theorem Instr.pixel_after_drw (hf : (Instr.drw x y n).faults s = none) (r c : Nat) :
    ((Instr.drw x y n).after s).pixel r c = (s.pixel r c ^^ s.drawnBit x y n r c) := by
  rw [Instr.after_drw hf]
  exact State.pixel_drawnCanvas

theorem Instr.readV_VF_after_drw (hf : (Instr.drw x y n).faults s = none) :
    ((Instr.drw x y n).after s).readV VF = flagByte (s.drawnCanvas x y n).hit := by
  rw [Instr.after_drw hf]
  exact State.readV_writeV_same _ _ _

theorem Instr.redraw_after_drw (hf : (Instr.drw x y n).faults s = none) :
    ((Instr.drw x y n).after s).redraw = true := by
  rw [Instr.after_drw hf]; rfl

theorem Instr.pc_after_drw (hf : (Instr.drw x y n).faults s = none) :
    ((Instr.drw x y n).after s).pc = s.pc + 2 := by
  rw [Instr.after_drw hf]; rfl

end Draw

end Sys2Proof

/-! ## The obligations on the display -/

open Sys2Proof Sys2Proof.Machine

/-- Settles O36: the cleared framebuffer has no set pixel. -/
theorem clearScreenClearsEveryPixel : Obligations.ClearScreenClearsEveryPixel :=
  ⟨decode_encode .cls, fun s => ⟨_, exec_eq_next_after .cls s, Framebuffer.pixel_clear, rfl, rfl,
    Instr.sameBut_after (i := .cls) rfl⟩⟩

/-- Settles O37, by whether the sprite fits in memory. -/
theorem drawXorsTheClippedSprite : Obligations.DrawXorsTheClippedSprite := by
  intro x y n
  refine ⟨decode_encode (.drw x y n), fun s hfit => ?_,
    fun s hn hout => Instr.latches_of_faults (Instr.drw_faults hn hout)⟩
  have hf : (Instr.drw x y n).faults s = none := Instr.drw_completes hfit
  refine ⟨_, exec_eq_next_after (.drw x y n) s, ?_, Instr.redraw_after_drw hf, Instr.pc_after_drw hf,
    fun r hr => Instr.readV_after_of_not_written hf (beq_eq_false_iff_ne.2 (List.ne_of_not_mem_cons hr)),
    Instr.sameBut_after hf⟩
  simp only [← State.drawnBit_eq, ← State.hit_drawnCanvas_iff]
  refine ⟨Instr.pixel_after_drw hf, fun hhit => ?_, fun hmiss => ?_⟩
  · exact (Instr.readV_VF_after_drw hf).trans (congrArg flagByte hhit)
  · exact (Instr.readV_VF_after_drw hf).trans (congrArg flagByte (Bool.eq_false_of_not_eq_true hmiss))

/-- Settles O38: the second drawing XORs the same bit onto each pixel as the first. -/
theorem drawingTwiceRestoresTheScreen : Obligations.DrawingTwiceRestoresTheScreen := by
  intro x y n s t u hfit h hfb hmem hI hx hy
  obtain rfl := Instr.after_of_exec h
  have hfirst : (Instr.drw x y n).faults s = none := Instr.drw_completes hfit
  have hsecond : (Instr.drw x y n).faults u = none := Instr.drw_completes (by rw [hI]; exact hfit)
  refine ⟨_, exec_eq_next_after (.drw x y n) u, Framebuffer.ext_pixel _ _ fun r c => ?_⟩
  have hpixel : u.pixel r c = ((Instr.drw x y n).after s).pixel r c := by rw [State.pixel, State.pixel, hfb]
  calc ((Instr.drw x y n).after u).pixel r c
    _ = (u.pixel r c ^^ u.drawnBit x y n r c) := Instr.pixel_after_drw hsecond r c
    _ = ((s.pixel r c ^^ s.drawnBit x y n r c) ^^ s.drawnBit x y n r c) := by
      rw [hpixel, Instr.pixel_after_drw hfirst, State.drawnBit_congr hmem hI hx hy]
    _ = s.pixel r c := by rw [Bool.xor_assoc, Bool.xor_self, Bool.xor_false]

/-- Settles O39: a DRW that faults draws nothing, and one that completes has no bit to draw there. -/
theorem drawingStaysInItsRectangle : Obligations.DrawingStaysInItsRectangle := by
  intro x y n s t r c h hout
  obtain rfl := Instr.after_of_exec h
  rcases hf : (Instr.drw x y n).faults s with - | cause
  · rw [Instr.pixel_after_drw hf, State.drawnBit_of_outside hout, Bool.xor_false]
  · rw [Instr.after_of_faults hf]; rfl
end

section
/-! PROOFS. The key and timer instructions (45_keys_timers): the skips on a key, the moves to and from the timers, and
the wait for a key from its beginning to the press that ends it. -/

namespace Sys2Proof.Machine

/-! ## The sound output (60_exceptions R261) -/

theorem State.soundActive_iff (s : State) : s.soundActive = true ↔ s.ST ≠ 0 := by
  rw [State.soundActive, decide_eq_true_iff, gt_iff_lt, Nat.pos_iff_ne_zero, ne_eq, ne_eq, BitVec.toNat_eq]
  rfl

/-! ## Ticks and key events while the core waits (60_exceptions R257, R258) -/

theorem tickTimers_of_waiting {s : State} (h : s.awaitingKey = true) : tickTimers s = s := if_pos h

theorem readV_setKey_release (k r : Nibble) (s : State) : (setKey k false s).readV r = s.readV r := rfl

theorem setKey_press_of_waiting {s : State} (k : Nibble) (h : s.awaitingKey = true) :
    setKey k true s =
      { (s.writeKey k true).writeV s.keyTarget (zextNibble k) with awaitingKey := false } :=
  if_pos h

section Press
variable {s : State} (k : Nibble) (h : s.awaitingKey = true)
include h

theorem awaitingKey_setKey_press : (setKey k true s).awaitingKey = false := by
  rw [setKey_press_of_waiting k h]

/-- The press writes the key's index, widened to a byte, to the register of the wait and to no other. -/
theorem readV_setKey_press (r : Nibble) :
    (setKey k true s).readV r = if r = s.keyTarget then zextNibble k else s.readV r := by
  rw [setKey_press_of_waiting k h]
  exact (s.writeKey k true).readV_writeV s.keyTarget r (zextNibble k)

theorem toNat_readV_setKey_press_target : ((setKey k true s).readV s.keyTarget).toNat = k.toNat := by
  rw [readV_setKey_press k h, if_pos rfl, toNat_zextNibble]

theorem sameRegistersBut_setKey_press : sameRegistersBut [s.keyTarget] s (setKey k true s) := by
  intro r hr
  rw [readV_setKey_press k h, if_neg (List.ne_of_not_mem_cons hr)]

end Press

theorem pc_setKey (k : Nibble) (p : Bool) (s : State) : (setKey k p s).pc = s.pc :=
  unchangedBut_setKey k p s .pc (by simp)

end Sys2Proof.Machine

/-! ## The obligations on the keys and the timers -/

open Sys2Proof Sys2Proof.Machine

/-- Settles O40, by whether `V[x]` is a key index: each skip is `State.skipIf` on the level of that key. -/
theorem keySkipsTestTheLatch : Obligations.KeySkipsTestTheLatch := by
  intro x
  refine ⟨decode_encode (.skp x), decode_encode (.sknp x), fun s hkey => ⟨?pressed, ?released⟩,
    fun s hout => ⟨Instr.latches_of_faults (i := .skp x) (if_pos hout),
      Instr.latches_of_faults (i := .sknp x) (if_pos hout)⟩⟩
  case pressed => exact ⟨_, exec_skp_of_key hkey, sameBut_skipIf s _, s.toNat_pc_skipIf _⟩
  case released =>
    refine ⟨_, exec_sknp_of_key hkey, sameBut_skipIf s _, ?_⟩
    simp only [State.toNat_pc_skipIf, Bool.not_eq_true']

/-- Settles O41: each move writes its destination and advances, and the sound output reads the new `ST`. -/
theorem timerMovesWriteOnlyTheirDestination : Obligations.TimerMovesWriteOnlyTheirDestination := fun x s =>
  ⟨⟨decode_encode (.ldVxDT x), decode_encode (.ldDTVx x), decode_encode (.ldSTVx x)⟩,
    exec_writes_result rfl,
    ⟨_, exec_eq_next_after (.ldDTVx x) s, rfl, rfl, Instr.sameBut_after (i := .ldDTVx x) rfl⟩,
    ⟨_, exec_eq_next_after (.ldSTVx x) s, rfl, rfl, Instr.sameBut_after (i := .ldSTVx x) rfl,
      State.soundActive_iff _⟩⟩

/-- Settles O42: the state the instruction leaves waits for `x`, so the facts on a waiting core hold of it, and its
registers are those of `s`. -/
theorem keyWaitBeginsAndEnds : Obligations.KeyWaitBeginsAndEnds := by
  intro x s
  have hwait : ((Instr.ldVxK x).after s).awaitingKey = true := rfl
  have hframe : sameBut [.awaitingKey, .keyTarget, .pc] s ((Instr.ldVxK x).after s) :=
    Instr.sameBut_after (i := .ldVxK x) rfl
  refine ⟨decode_encode (.ldVxK x), _, exec_eq_next_after (.ldVxK x) s, hwait, rfl, rfl, hframe,
    fun hf => step_of_waiting hf hwait, tickTimers_of_waiting hwait, fun k => ⟨?_, fun r => ?_⟩,
    fun k => ⟨awaitingKey_setKey_press k hwait, pc_setKey k true _, toNat_readV_setKey_press_target k hwait,
      fun r hr => ?_⟩⟩
  · rw [awaitingKey_setKey_release, hwait]
  · rw [readV_setKey_release, hframe .V (by simp)]
  · rw [sameRegistersBut_setKey_press k hwait r hr, hframe .V (by simp)]
end

section
/-! PROOFS. Faults and the host's operations (60_exceptions): what a step that latches a fault records, how the latch
holds until a reset, and what a key event and a tick do to a waiting and to any other core. -/

namespace Sys2Proof.Machine

variable {s t : State}

/-! ## What a fault records (60_exceptions R241, R246, R247) -/

theorem State.opcodeAtPc_of_bytes {op : Word} (hhi : s.byteAt s.pc.toNat = Opcode.hiByte op)
    (hlo : s.byteAt (s.pc.toNat + 1) = Opcode.loByte op) : s.opcodeAtPc = op := by
  rw [State.opcodeAtPc, hhi, hlo, Opcode.ofBytes_bytes]

/-- The opcode a fault records, 0x0000 when the fetch itself faults, as a number. -/
theorem State.toNat_fetch_getD (s : State) :
    (s.fetch.getD 0).toNat = if s.pc.toNat ≤ 0xFFE then
      256 * (s.byteAt s.pc.toNat).toNat + (s.byteAt (s.pc.toNat + 1)).toNat else 0 := by
  rw [s.fetch_eq]
  split
  · exact s.toNat_opcodeAtPc
  · rfl

theorem State.fetch_getD_of_ready (h : s.ready) : s.fetch.getD 0 = s.opcodeAtPc := by
  rw [s.fetch_eq, if_pos h.2.2, Option.getD_some]

/-- A step that latches a fault is the fault entry with the opcode fetched: an instruction that raises its fault
records its own encoding, which is the opcode it was decoded from. -/
theorem eq_takeFault_of_step_latches {r : FaultRecord} (hf : s.fault = none) (h : step s = .next t)
    (hr : t.fault = some r) : ∃ c, t = s.takeFault c (s.fetch.getD 0) := by
  obtain ⟨r', hr', -⟩ | ⟨-, -, hs⟩ | ⟨-, -, hpc, hs⟩ | ⟨hready, -, hs⟩ | ⟨hready, i, hd, hs⟩ := step_cases s
  · rw [hf] at hr'; cases hr'
  all_goals rw [hs] at h
  · cases h
    rw [hf] at hr; cases hr
  · cases h
    rw [s.fetch_eq, if_neg (Nat.not_le.2 hpc)]
    exact ⟨_, rfl⟩
  · cases h
    exact ⟨_, by rw [State.fetch_getD_of_ready hready]⟩
  · obtain rfl := Instr.after_of_exec h
    rcases hi : i.faults s with - | c
    · rw [Instr.fault_after hi, hf] at hr; cases hr
    · exact ⟨c, by rw [Instr.after_of_faults hi, State.fetch_getD_of_ready hready, encode_of_decode hd]⟩

/-! ## Key events and ticks (60_exceptions R257, R258) -/

theorem unchangedBut_refl (es : List Element) (s : State) : unchangedBut es s s := fun e _ => e.unchanged_refl s

theorem setKey_of_not_ends_wait {k : Nibble} {p : Bool} (h : ¬ (p = true ∧ s.awaitingKey = true)) :
    setKey k p s = s.writeKey k p :=
  if_neg (by rwa [Bool.and_eq_true])

theorem unchangedBut_setKey_of_not_ends_wait {k : Nibble} {p : Bool} (h : ¬ (p = true ∧ s.awaitingKey = true)) :
    unchangedBut [.key] s (setKey k p s) := by
  rw [setKey_of_not_ends_wait h]
  exact unchangedBut_writeKey s k p

theorem tickTimers_of_not_waiting (h : s.awaitingKey = false) :
    tickTimers s = { s with DT := countDown s.DT, ST := countDown s.ST } :=
  if_neg (by rw [h]; exact Bool.false_ne_true)

theorem toNat_DT_tickTimers (h : s.awaitingKey = false) : (tickTimers s).DT.toNat = s.DT.toNat - 1 := by
  rw [tickTimers_of_not_waiting h]
  exact toNat_countDown s.DT

theorem toNat_ST_tickTimers (h : s.awaitingKey = false) : (tickTimers s).ST.toNat = s.ST.toNat - 1 := by
  rw [tickTimers_of_not_waiting h]
  exact toNat_countDown s.ST

/-! ## A Faulted core (60_exceptions R250, R254) -/

theorem State.awaitingKey_of_faulted {r : FaultRecord} (hr : s.fault = some r) (hw : s.noFaultWhileWaiting) :
    s.awaitingKey = false :=
  Bool.eq_false_of_not_eq_true fun hk => hw ⟨hk, by rw [hr]; rfl⟩

/-- A step does nothing and no press ends a wait, so only the timers, the key latch and the redraw flag can change. -/
theorem unchangedBut_operate_of_faulted_of_not_load {op : Operation} {r : FaultRecord} (hr : s.fault = some r)
    (hw : s.noFaultWhileWaiting) (hreset : op ≠ .reset) (hload : ∀ image, op ≠ .load image) :
    unchangedBut [.DT, .ST, .key, .redraw] s (operate op s).1 := by
  cases op with
  | reset => exact absurd rfl hreset
  | load image => exact absurd rfl (hload image)
  | step => rw [operate_step_of_faulted hr]; exact unchangedBut_refl _ s
  | tickTimers => exact (unchangedBut_tickTimers s).mono (by simp)
  | setKey k p =>
    have hpress : ¬ (p = true ∧ s.awaitingKey = true) := by simp [State.awaitingKey_of_faulted hr hw]
    exact (unchangedBut_setKey_of_not_ends_wait hpress).mono (by simp)
  | ackRedraw => exact (unchangedBut_setRedraw s false).mono (by simp)

theorem unchangedBut_operate_of_faulted {op : Operation} {r : FaultRecord} (hr : s.fault = some r)
    (hw : s.noFaultWhileWaiting) (hreset : op ≠ .reset) :
    unchangedBut [.mem, .DT, .ST, .key, .redraw] s (operate op s).1 := by
  by_cases hload : ∃ image, op = .load image
  · obtain ⟨image, rfl⟩ := hload
    exact (unchangedBut_load image s).mono (by simp)
  · exact (unchangedBut_operate_of_faulted_of_not_load hr hw hreset (not_exists.1 hload)).mono (by simp)

end Sys2Proof.Machine

/-! ## The obligations on faults and on the host's operations -/

open Sys2Proof Sys2Proof.Machine

/-- Settles O11: a step that latches a fault is the fault entry with the opcode fetched. -/
theorem faultsArePrecise : Obligations.FaultsArePrecise := by
  intro s t r hf h hr
  have hop : operate .step s = (t, .fault r) := by rw [operate_step_of_next h, State.stepReport, hr]
  obtain ⟨c, rfl⟩ := eq_takeFault_of_step_latches hf h hr
  obtain rfl : _ = r := Option.some.inj hr
  exact ⟨rfl, rfl, s.toNat_fetch_getD, hop⟩

/-- Settles O12: an instruction takes the fault entry where its condition holds, and otherwise does not write the
latch. -/
theorem instructionsFaultExactlyWhenTheirConditionHolds :
    Obligations.InstructionsFaultExactlyWhenTheirConditionHolds := by
  intro i s
  refine ⟨_, exec_eq_next_after i s, ?_⟩
  rcases hi : i.faults s with - | c
  · exact Instr.fault_after hi
  · rw [Instr.after_of_faults hi, State.takeFault_fault]

/-- Settles O54: the frame of an operation on a Faulted core has the latch in it, and memory too unless it is a
load. -/
theorem faultIsLatchedUntilReset : Obligations.FaultIsLatchedUntilReset := by
  intro s op r hr hw hreset
  have hframe := unchangedBut_operate_of_faulted hr hw hreset
  refine ⟨Eq.trans (hframe .fault (by simp)) hr, hframe.sameBut (by simp), fun hload => ?_⟩
  exact (unchangedBut_operate_of_faulted_of_not_load hr hw hreset hload).byteAt (by simp) (by simp)

/-- Settles O10: the two bytes at `pc` are the opcode the step decodes and rejects. -/
theorem unknownOpcodeIsLatched : Obligations.UnknownOpcodeIsLatched := by
  intro s op hf hw hpc hhi hlo hd
  have hop : s.opcodeAtPc = op := State.opcodeAtPc_of_bytes hhi hlo
  rw [step_of_unknown ⟨hf, hw, hpc⟩ (by rw [hop, hd]), hop]
  rfl

/-- Settles O43, by whether the event is a press that ends a wait. -/
theorem setKeyWritesTheLatch : Obligations.SetKeyWritesTheLatch := by
  intro k p s
  refine ⟨rfl, keyDown_setKey k p s, ?_, fun h => (unchangedBut_setKey_of_not_ends_wait h).sameBut (by simp)⟩
  rintro ⟨rfl, hw⟩
  exact ⟨awaitingKey_setKey_press k hw, toNat_readV_setKey_press_target k hw, sameRegistersBut_setKey_press k hw,
    (unchangedBut_setKey k true s).sameBut (by simp)⟩

/-- Settles O44: a tick counts both timers down unless the core waits. -/
theorem tickTimersCountsDown : Obligations.TickTimersCountsDown := fun s =>
  ⟨rfl, tickTimers_of_waiting, fun hw =>
    ⟨toNat_DT_tickTimers hw, toNat_ST_tickTimers hw, (unchangedBut_tickTimers s).sameBut (by simp)⟩⟩

/-- Settles O53: a waiting core's step and tick leave the state as it is, and a release writes the key latch only. -/
theorem waitFreezesTheCore : Obligations.WaitFreezesTheCore := by
  intro s op hf hw hop
  apply unchangedBut.sameBut (hf := by simp)
  obtain rfl | rfl | ⟨k, rfl⟩ := hop
  · rw [operate_step_of_next (step_of_waiting hf hw)]
    exact unchangedBut_refl _ s
  · change unchangedBut [.key] s (tickTimers s)
    rw [tickTimers_of_waiting hw]
    exact unchangedBut_refl _ s
  · exact unchangedBut_setKey_of_not_ends_wait (k := k) fun h => Bool.false_ne_true h.1

/-- Settles O58: the sound output reads `ST`, which a tick lowers by 1 or, while the core waits, keeps. -/
theorem soundOutputFollowsTheTimer : Obligations.SoundOutputFollowsTheTimer := by
  refine fun s => ⟨s.soundActive_iff, fun hw => ?_, fun hw => by rw [tickTimers_of_waiting hw]⟩
  calc (tickTimers s).soundActive = true
      ↔ 0 < (tickTimers s).ST.toNat := decide_eq_true_iff
    _ ↔ 1 < s.ST.toNat := by rw [toNat_ST_tickTimers hw, Nat.sub_pos_iff_lt]
end

section
/-! PROOFS. Reset, load and launch (70_reset): what a load stores, what an image that begins with an instruction makes
of the reset state, and that `reset` and `ack_redraw` do the same from every state. -/

namespace Sys2Proof.Machine

/-! ## A load (70_reset R282) -/

theorem eq_storeBytes_of_load {image : List Byte} {s t : State} (h : load image s = some t) :
    t = s.storeBytes 0x200 image := by
  have hop : operate (.load image) s = (t, .ok) := by simp only [operate, h]
  rw [operate_load_of_fits (load_cases h).1] at hop
  exact (Prod.mk.inj hop).1.symm

theorem unchangedBut_of_load {image : List Byte} {s t : State} (h : load image s = some t) :
    unchangedBut [.mem] s t := by
  rw [eq_storeBytes_of_load h]
  exact unchangedBut_storeBytes s 0x200 image

theorem sameMemoryOutside_storeBytes (s : State) (a : Nat) (vs : List Byte) :
    sameMemoryOutside a vs.length s (s.storeBytes a vs) := fun b hb =>
  (s.byteAt_storeBytes a b vs).trans (if_neg (by omega))

/-! ## The launch (70_reset R284, R285) -/

section Launch
variable {font : Font} {image rest : List Byte} {i : Instr} {s : State}

theorem pc_of_load_resetWith (h : load image (State.resetWith font) = some s) : s.pc = 0x200 :=
  unchangedBut_of_load h .pc (by simp)

/-- A load writes none of what `State.ready` reads. -/
theorem State.ready_of_load_resetWith (h : load image (State.resetWith font) = some s) : s.ready :=
  ⟨unchangedBut_of_load h .fault (by simp), unchangedBut_of_load h .awaitingKey (by simp),
    by rw [pc_of_load_resetWith h]; decide⟩

/-- The two bytes of the instruction stand at `pc` and the address after it. -/
theorem step_of_load_encoded (h : load (encodeBytes i ++ rest) (State.resetWith font) = some s) :
    step s = exec i s := by
  have hready : s.ready := State.ready_of_load_resetWith h
  have hpc : s.pc.toNat = 0x200 := congrArg BitVec.toNat (pc_of_load_resetWith h)
  obtain rfl := eq_storeBytes_of_load h
  apply step_of_encoded_at_pc hready
  · rw [hpc]
    exact State.byteAt_storeBytes_at (k := 0) _ 0x200 (by simp [encodeBytes])
  · rw [hpc]
    exact State.byteAt_storeBytes_at (k := 1) _ 0x200 (by simp [encodeBytes])

end Launch

/-! ## A reset from any state (70_reset R280) -/

/-- The model's own count of random draws is no element that the reset values speak of. -/
theorem State.HasResetValues.setRndDraws {font : Font} {t : State} (h : t.HasResetValues font) (n : Nat) :
    State.HasResetValues font { t with rndDraws := n } :=
  { h with }

theorem hasResetValues_reset (s : State) : (reset s).HasResetValues s.font :=
  (State.hasResetValues_resetWith s.font).setRndDraws s.rndDraws

end Sys2Proof.Machine

/-! ## The obligations on reset, load and launch -/

open Sys2Proof Sys2Proof.Machine

/-- Settles O45, by whether the image fits: a load that does is the store of the image at 0x200. -/
theorem loadCopiesTheImage : Obligations.LoadCopiesTheImage := by
  refine fun image s => ⟨fun hfits => ?_, fun hlong => operate_load_of_too_long hlong s⟩
  rw [operate_load_of_fits hfits]
  refine ⟨rfl, fun k hk => ?_, sameMemoryOutside_storeBytes s 0x200 image,
    (unchangedBut_storeBytes s 0x200 image).sameBut (by simp)⟩
  rw [State.byteAt_storeBytes_at s 0x200 hk, List.getD_eq_getElem image 0 hk]

/-- Settles O48: memory is the image stored over the reset contents, and `pc` is where the image begins. -/
theorem launchStateRunsTheImage : Obligations.LaunchStateRunsTheImage := by
  refine ⟨fun font image s h => ⟨fun a => ?_, (unchangedBut_of_load h).sameBut (by simp)⟩,
    fun font i rest s h => step_of_load_encoded h⟩
  obtain ⟨-, hmem, -⟩ := load_cases h
  rw [hmem, State.byteAt_resetWith]

/-- Settles O47: a reset differs from the reset state of the same `FONT` in the count of random draws only. -/
theorem resetAndAckRedrawFromAnyState : Obligations.ResetAndAckRedrawFromAnyState := fun s =>
  ⟨⟨rfl, hasResetValues_reset s, font_operate s .reset⟩,
    ⟨rfl, rfl, (unchangedBut_setRedraw s false).sameBut (by simp)⟩⟩
end
